-- ==== Sys2Proof/Word.lean ====
section
/-! DEFINITION. The two word types of the block and their plainest arithmetic (R11, R12 of 00_scope.md): every value is
unsigned, 8 bits for V registers, timers and memory bytes, 16 bits for PC, I and stack slots. -/

namespace Sys2Proof

/-- An 8-bit value (R11): a V register, a timer, a memory byte. `+` and `-` on it are the spec's +₈ and -₈ (R12). -/
abbrev Byte := BitVec 8

/-- A 16-bit value (R11): PC, I, a stack slot, an instruction word. `+` on it is the spec's +₁₆ (R12). -/
abbrev Word := BitVec 16

/-- zext_16 of a byte (R12). -/
def zext16 (b : Byte) : Word := b.setWidth 16

end Sys2Proof
end

