-- ==== Sys2Proof/Syntax.lean ====
section
/-! DEFINITION. The decoded instructions (R88 of 30_encoding.md): one constructor per row of spec/opcode_table.json. -/

namespace Sys2Proof

/-- A register field x or y: an index 0..15 into V (R10, R71). -/
abbrev Reg := Fin 16

/-- The register VF, V[0xF] (R13, R24). -/
abbrev VF : Reg := 15

/-- The 34 instructions (R88). `addr` is the address field nnn, zero-extended to 16 bits (R73); `n` is the row count
(R73). Both are wider than the field they stand for, and `Instr.wellFormed` says what fits. -/
inductive Instr where
  /-- `00E0`, R164. -/
  | cls
  /-- `00EE`, R100. -/
  | ret
  /-- `1nnn`, JP addr, R101. -/
  | jp (addr : Word)
  /-- `2nnn`, CALL addr, R102. -/
  | call (addr : Word)
  /-- `3xkk`, SE Vx,kk, R110. -/
  | seK (x : Reg) (kk : Byte)
  /-- `4xkk`, SNE Vx,kk, R111. -/
  | sneK (x : Reg) (kk : Byte)
  /-- `5xy0`, SE Vx,Vy, R112. -/
  | seV (x y : Reg)
  /-- `6xkk`, LD Vx,kk, R121. -/
  | ldK (x : Reg) (kk : Byte)
  /-- `7xkk`, ADD Vx,kk, R122. -/
  | addK (x : Reg) (kk : Byte)
  /-- `8xy0`, LD Vx,Vy, R123. -/
  | ldV (x y : Reg)
  /-- `8xy1`, OR Vx,Vy, R124. -/
  | orV (x y : Reg)
  /-- `8xy2`, AND Vx,Vy, R125. -/
  | andV (x y : Reg)
  /-- `8xy3`, XOR Vx,Vy, R126. -/
  | xorV (x y : Reg)
  /-- `8xy4`, ADD Vx,Vy, R127. -/
  | addV (x y : Reg)
  /-- `8xy5`, SUB Vx,Vy, R128. -/
  | subV (x y : Reg)
  /-- `8xy6`, SHR Vx, R129; the y field is ignored (R84). -/
  | shr (x : Reg)
  /-- `8xy7`, SUBN Vx,Vy, R130. -/
  | subnV (x y : Reg)
  /-- `8xyE`, SHL Vx, R131; the y field is ignored (R84). -/
  | shl (x : Reg)
  /-- `9xy0`, SNE Vx,Vy, R113. -/
  | sneV (x y : Reg)
  /-- `Annn`, LD I,addr, R140. -/
  | ldI (addr : Word)
  /-- `Bnnn`, JP V0,addr, R103. -/
  | jpV0 (addr : Word)
  /-- `Cxkk`, RND Vx,kk, R132. -/
  | rnd (x : Reg) (kk : Byte)
  /-- `Dxyn`, DRW Vx,Vy,n, R165. -/
  | drw (x y : Reg) (n : Nat)
  /-- `Ex9E`, SKP Vx, R114. -/
  | skp (x : Reg)
  /-- `ExA1`, SKNP Vx, R115. -/
  | sknp (x : Reg)
  /-- `Fx07`, LD Vx,DT, R150. -/
  | ldVDT (x : Reg)
  /-- `Fx0A`, LD Vx,K, R153. -/
  | ldVK (x : Reg)
  /-- `Fx15`, LD DT,Vx, R151. -/
  | ldDTV (x : Reg)
  /-- `Fx18`, LD ST,Vx, R152. -/
  | ldSTV (x : Reg)
  /-- `Fx1E`, ADD I,Vx, R141. -/
  | addI (x : Reg)
  /-- `Fx29`, LD F,Vx, R142. -/
  | ldF (x : Reg)
  /-- `Fx33`, LD B,Vx, R144. -/
  | ldB (x : Reg)
  /-- `Fx55`, LD [I],Vx, R145. -/
  | ldMI (x : Reg)
  /-- `Fx65`, LD Vx,[I], R146. -/
  | ldVMI (x : Reg)
  deriving DecidableEq, Repr

end Sys2Proof
end

