-- ==== Sys2Proof/WellFormed.lean ====
section
/-! DEFINITION. Which instruction terms an encoding exists for (R71, R73 of 30_encoding.md). Register fields and `kk` fit by
their types; the address field and the row count are checked here. -/

namespace Sys2Proof

/-- The address fits the 12 bits of nnn (R73). -/
def addrFits (addr : Word) : Bool := addr.toNat ≤ 0x0FFF

/-- The row count fits the 4 bits of n, 0..15 (R73). -/
def countFits (n : Nat) : Bool := n ≤ 15

/-- Every operand fits the field that encodes it. -/
def Instr.wellFormed (i : Instr) : Bool :=
  match i with
  | .jp addr | .call addr | .ldI addr | .jpV0 addr => addrFits addr
  | .drw _ _ n => countFits n
  | .cls | .ret | .seK _ _ | .sneK _ _ | .seV _ _ | .ldK _ _ | .addK _ _ | .ldV _ _ | .orV _ _ | .andV _ _
  | .xorV _ _ | .addV _ _ | .subV _ _ | .shr _ | .subnV _ _ | .shl _ | .sneV _ _ | .rnd _ _ | .skp _ | .sknp _
  | .ldVDT _ | .ldVK _ | .ldDTV _ | .ldSTV _ | .addI _ | .ldF _ | .ldB _ | .ldMI _ | .ldVMI _ => true

end Sys2Proof
end

