-- ==== Sys2Proof/Decode.lean ====
section
/-! DEFINITION. The decoder (R70 to R85 of 30_encoding.md), total on every word and on every list of bytes, rejecting by
name; the same decoder read from the opcode table by mask and match in the order of R75; and the encoder. -/

namespace Sys2Proof

/-- Why bytes are no instruction. -/
inductive DecodeError where
  /-- No row of R76 to R81 assigns the word to an instruction (R82). -/
  | illegalWord (w : Word)
  /-- Fewer than the two bytes of an instruction (R70). -/
  | truncated
  deriving DecidableEq, Repr

/-! ## Fields of the instruction word (R71) -/

/-- op = w[15:12]. -/
def fieldOp (w : Word) : Nat := (w.extractLsb' 12 4).toNat

/-- x = w[11:8]. -/
def fieldX (w : Word) : Reg := ⟨(w.extractLsb' 8 4).toNat, (w.extractLsb' 8 4).isLt⟩

/-- y = w[7:4]. -/
def fieldY (w : Word) : Reg := ⟨(w.extractLsb' 4 4).toNat, (w.extractLsb' 4 4).isLt⟩

/-- n = w[3:0]. -/
def fieldN (w : Word) : Nat := (w.extractLsb' 0 4).toNat

/-- kk = w[7:0]. -/
def fieldKK (w : Word) : Byte := w.extractLsb' 0 8

/-- nnn = w[11:0], zero-extended to 16 bits (R73). -/
def fieldNNN (w : Word) : Word := (w.extractLsb' 0 12).setWidth 16

/-! ## The decoder (R74, R76 to R82) -/

/-- Major nibble 0x0 (R76, R83): two exact words. -/
def decode0 (w : Word) : Except DecodeError Instr :=
  if w = 0x00E0 then .ok .cls
  else if w = 0x00EE then .ok .ret
  else .error (.illegalWord w)

/-- Major nibble 0x8 (R78), by the minor nibble. -/
def decode8 (w : Word) : Except DecodeError Instr :=
  match fieldN w with
  | 0x0 => .ok (.ldV (fieldX w) (fieldY w))
  | 0x1 => .ok (.orV (fieldX w) (fieldY w))
  | 0x2 => .ok (.andV (fieldX w) (fieldY w))
  | 0x3 => .ok (.xorV (fieldX w) (fieldY w))
  | 0x4 => .ok (.addV (fieldX w) (fieldY w))
  | 0x5 => .ok (.subV (fieldX w) (fieldY w))
  | 0x6 => .ok (.shr (fieldX w))
  | 0x7 => .ok (.subnV (fieldX w) (fieldY w))
  | 0xE => .ok (.shl (fieldX w))
  | _ => .error (.illegalWord w)

/-- Major nibble 0xE (R80), by the minor byte. -/
def decodeE (w : Word) : Except DecodeError Instr :=
  match (fieldKK w).toNat with
  | 0x9E => .ok (.skp (fieldX w))
  | 0xA1 => .ok (.sknp (fieldX w))
  | _ => .error (.illegalWord w)

/-- Major nibble 0xF (R81), by the minor byte. -/
def decodeF (w : Word) : Except DecodeError Instr :=
  match (fieldKK w).toNat with
  | 0x07 => .ok (.ldVDT (fieldX w))
  | 0x0A => .ok (.ldVK (fieldX w))
  | 0x15 => .ok (.ldDTV (fieldX w))
  | 0x18 => .ok (.ldSTV (fieldX w))
  | 0x1E => .ok (.addI (fieldX w))
  | 0x29 => .ok (.ldF (fieldX w))
  | 0x33 => .ok (.ldB (fieldX w))
  | 0x55 => .ok (.ldMI (fieldX w))
  | 0x65 => .ok (.ldVMI (fieldX w))
  | _ => .error (.illegalWord w)

/-- The decoder (R74): the opcode maps of R76 to R81, by the major nibble. Everything else is DecodeError (R82). -/
def decode (w : Word) : Except DecodeError Instr :=
  match fieldOp w with
  | 0x0 => decode0 w
  | 0x1 => .ok (.jp (fieldNNN w))
  | 0x2 => .ok (.call (fieldNNN w))
  | 0x3 => .ok (.seK (fieldX w) (fieldKK w))
  | 0x4 => .ok (.sneK (fieldX w) (fieldKK w))
  | 0x5 => if fieldN w = 0 then .ok (.seV (fieldX w) (fieldY w)) else .error (.illegalWord w)
  | 0x6 => .ok (.ldK (fieldX w) (fieldKK w))
  | 0x7 => .ok (.addK (fieldX w) (fieldKK w))
  | 0x8 => decode8 w
  | 0x9 => if fieldN w = 0 then .ok (.sneV (fieldX w) (fieldY w)) else .error (.illegalWord w)
  | 0xA => .ok (.ldI (fieldNNN w))
  | 0xB => .ok (.jpV0 (fieldNNN w))
  | 0xC => .ok (.rnd (fieldX w) (fieldKK w))
  | 0xD => .ok (.drw (fieldX w) (fieldY w) (fieldN w))
  | 0xE => decodeE w
  | _ => decodeF w

/-- Decoding from bytes as memory holds them: the first byte is bits 15:8, the second bits 7:0 (R53). -/
def decodeBytes (bytes : List Byte) : Except DecodeError (Instr × List Byte) :=
  match bytes with
  | hi :: lo :: rest =>
    match decode (hi ++ lo) with
    | .ok i => .ok (i, rest)
    | .error e => .error e
  | _ => .error .truncated

/-- The two bytes of a word in the order memory holds them (R53). -/
def wordBytes (w : Word) : List Byte := [w.extractLsb' 8 8, w.extractLsb' 0 8]

/-- The decoder on an instruction numbered as spec/opcode_table.json numbers it: one 16-bit word, bit 0 the least
significant; bits at and above `nbits` are 0. -/
def decodeTableWord (nbits w : Nat) : Option Instr :=
  match decodeBytes (wordBytes (BitVec.ofNat 16 (w % 2 ^ nbits))) with
  | .ok (i, _) => some i
  | .error _ => none

/-! ## The decoder as a table of masks and matches (R75) -/

/-- One row of spec/opcode_table.json: its mask, its match, and the instruction its fields give. -/
structure OpcodeRow where
  mask : Word
  mtch : Word
  build : Word → Instr

/-- A row matches a word when `(w & mask) == match` (R75). -/
def OpcodeRow.matches (r : OpcodeRow) (w : Word) : Bool := w &&& r.mask == r.mtch

/-- The exact rows (R75, 1). -/
def exactRows : List OpcodeRow :=
  [⟨0xFFFF, 0x00E0, fun _ => .cls⟩, ⟨0xFFFF, 0x00EE, fun _ => .ret⟩]

/-- The F0FF-masked rows: the E-group and the F-group (R75, 2). -/
def minorByteRows : List OpcodeRow :=
  [⟨0xF0FF, 0xE09E, fun w => .skp (fieldX w)⟩, ⟨0xF0FF, 0xE0A1, fun w => .sknp (fieldX w)⟩,
   ⟨0xF0FF, 0xF007, fun w => .ldVDT (fieldX w)⟩, ⟨0xF0FF, 0xF00A, fun w => .ldVK (fieldX w)⟩,
   ⟨0xF0FF, 0xF015, fun w => .ldDTV (fieldX w)⟩, ⟨0xF0FF, 0xF018, fun w => .ldSTV (fieldX w)⟩,
   ⟨0xF0FF, 0xF01E, fun w => .addI (fieldX w)⟩, ⟨0xF0FF, 0xF029, fun w => .ldF (fieldX w)⟩,
   ⟨0xF0FF, 0xF033, fun w => .ldB (fieldX w)⟩, ⟨0xF0FF, 0xF055, fun w => .ldMI (fieldX w)⟩,
   ⟨0xF0FF, 0xF065, fun w => .ldVMI (fieldX w)⟩]

/-- The F00F-masked rows: 5xy0, 9xy0 and the 8-group (R75, 3). -/
def minorNibbleRows : List OpcodeRow :=
  [⟨0xF00F, 0x5000, fun w => .seV (fieldX w) (fieldY w)⟩, ⟨0xF00F, 0x9000, fun w => .sneV (fieldX w) (fieldY w)⟩,
   ⟨0xF00F, 0x8000, fun w => .ldV (fieldX w) (fieldY w)⟩, ⟨0xF00F, 0x8001, fun w => .orV (fieldX w) (fieldY w)⟩,
   ⟨0xF00F, 0x8002, fun w => .andV (fieldX w) (fieldY w)⟩, ⟨0xF00F, 0x8003, fun w => .xorV (fieldX w) (fieldY w)⟩,
   ⟨0xF00F, 0x8004, fun w => .addV (fieldX w) (fieldY w)⟩, ⟨0xF00F, 0x8005, fun w => .subV (fieldX w) (fieldY w)⟩,
   ⟨0xF00F, 0x8006, fun w => .shr (fieldX w)⟩, ⟨0xF00F, 0x8007, fun w => .subnV (fieldX w) (fieldY w)⟩,
   ⟨0xF00F, 0x800E, fun w => .shl (fieldX w)⟩]

/-- The F000-masked rows (R75, 4). -/
def majorRows : List OpcodeRow :=
  [⟨0xF000, 0x1000, fun w => .jp (fieldNNN w)⟩, ⟨0xF000, 0x2000, fun w => .call (fieldNNN w)⟩,
   ⟨0xF000, 0x3000, fun w => .seK (fieldX w) (fieldKK w)⟩, ⟨0xF000, 0x4000, fun w => .sneK (fieldX w) (fieldKK w)⟩,
   ⟨0xF000, 0x6000, fun w => .ldK (fieldX w) (fieldKK w)⟩, ⟨0xF000, 0x7000, fun w => .addK (fieldX w) (fieldKK w)⟩,
   ⟨0xF000, 0xA000, fun w => .ldI (fieldNNN w)⟩, ⟨0xF000, 0xB000, fun w => .jpV0 (fieldNNN w)⟩,
   ⟨0xF000, 0xC000, fun w => .rnd (fieldX w) (fieldKK w)⟩,
   ⟨0xF000, 0xD000, fun w => .drw (fieldX w) (fieldY w) (fieldN w)⟩]

/-- All 34 rows in the order of R75. -/
def opcodeRows : List OpcodeRow := exactRows ++ minorByteRows ++ minorNibbleRows ++ majorRows

/-- The first matching row wins; no row is DecodeError (R75). -/
def decodeByRows (w : Word) : Except DecodeError Instr :=
  match opcodeRows.find? (fun r => r.matches w) with
  | some r => .ok (r.build w)
  | none => .error (.illegalWord w)

/-! ## The encoder (R72, R76 to R81) -/

/-- A register field as its nibble. -/
def regNibble (r : Reg) : BitVec 4 := BitVec.ofNat 4 r.val

/-- Format A, `op nnn`. -/
def wordA (op : BitVec 4) (addr : Word) : Word := op ++ addr.extractLsb' 0 12

/-- Formats XK and X, `op x kk` and `op x mm`. -/
def wordXK (op : BitVec 4) (x : Reg) (kk : Byte) : Word := op ++ regNibble x ++ kk

/-- Formats XY, X_ and XYN, `op x y n`. -/
def wordXYN (op : BitVec 4) (x y : Reg) (n : Nat) : Word := op ++ regNibble x ++ regNibble y ++ BitVec.ofNat 4 n

/-- The word of an instruction. SHR and SHL have no y operand: their y nibble is 0 (D33). -/
def encode (i : Instr) : Word :=
  match i with
  | .cls => 0x00E0
  | .ret => 0x00EE
  | .jp addr => wordA 0x1 addr
  | .call addr => wordA 0x2 addr
  | .seK x kk => wordXK 0x3 x kk
  | .sneK x kk => wordXK 0x4 x kk
  | .seV x y => wordXYN 0x5 x y 0x0
  | .ldK x kk => wordXK 0x6 x kk
  | .addK x kk => wordXK 0x7 x kk
  | .ldV x y => wordXYN 0x8 x y 0x0
  | .orV x y => wordXYN 0x8 x y 0x1
  | .andV x y => wordXYN 0x8 x y 0x2
  | .xorV x y => wordXYN 0x8 x y 0x3
  | .addV x y => wordXYN 0x8 x y 0x4
  | .subV x y => wordXYN 0x8 x y 0x5
  | .shr x => wordXYN 0x8 x 0 0x6
  | .subnV x y => wordXYN 0x8 x y 0x7
  | .shl x => wordXYN 0x8 x 0 0xE
  | .sneV x y => wordXYN 0x9 x y 0x0
  | .ldI addr => wordA 0xA addr
  | .jpV0 addr => wordA 0xB addr
  | .rnd x kk => wordXK 0xC x kk
  | .drw x y n => wordXYN 0xD x y n
  | .skp x => wordXK 0xE x 0x9E
  | .sknp x => wordXK 0xE x 0xA1
  | .ldVDT x => wordXK 0xF x 0x07
  | .ldVK x => wordXK 0xF x 0x0A
  | .ldDTV x => wordXK 0xF x 0x15
  | .ldSTV x => wordXK 0xF x 0x18
  | .addI x => wordXK 0xF x 0x1E
  | .ldF x => wordXK 0xF x 0x29
  | .ldB x => wordXK 0xF x 0x33
  | .ldMI x => wordXK 0xF x 0x55
  | .ldVMI x => wordXK 0xF x 0x65

end Sys2Proof
end

