-- ==== Sys2Proof/Config.lean ====
section
/-! DEFINITION. What the spec leaves to an implementation (R8 of 00_scope.md): the default FONT bytes, and the free values
of the input ports once the model's own list of input samples is used up. -/

namespace Sys2Proof.Config

/-- Glyphs 0 to 7 of the default FONT, 5 bytes each (92_eei_decisions.md D14). UNVERIFIED: the spec takes these bytes from
general knowledge (entry 3). -/
def fontLow : List Byte :=
  [0xF0, 0x90, 0x90, 0x90, 0xF0] ++ [0x20, 0x60, 0x20, 0x20, 0x70] ++
  [0xF0, 0x10, 0xF0, 0x80, 0xF0] ++ [0xF0, 0x10, 0xF0, 0x10, 0xF0] ++
  [0x90, 0x90, 0xF0, 0x10, 0x10] ++ [0xF0, 0x80, 0xF0, 0x10, 0xF0] ++
  [0xF0, 0x80, 0xF0, 0x90, 0xF0] ++ [0xF0, 0x10, 0x20, 0x40, 0x40]

/-- Glyphs 8 to F of the default FONT (92_eei_decisions.md D14). UNVERIFIED (entry 3). -/
def fontHigh : List Byte :=
  [0xF0, 0x90, 0xF0, 0x90, 0xF0] ++ [0xF0, 0x90, 0xF0, 0x10, 0xF0] ++
  [0xF0, 0x90, 0xF0, 0x90, 0x90] ++ [0xE0, 0x90, 0xE0, 0x90, 0xE0] ++
  [0xF0, 0x80, 0x80, 0x80, 0xF0] ++ [0xE0, 0x90, 0x90, 0x90, 0xE0] ++
  [0xF0, 0x80, 0xF0, 0x80, 0xF0] ++ [0xF0, 0x80, 0xF0, 0x80, 0x80]

/-- The 80 bytes of the default FONT (R8, R201, D14). -/
def font : List Byte := fontLow ++ fontHigh

/-- What `key_down[15:0]` reads in the cycle with the given number, when no sample is listed: a free value (R16, R187). -/
opaque freeKeyDown : Nat → BitVec 16

/-- What `key_event` reports in the cycle with the given number, when no sample is listed: a free value (R16, R187). -/
opaque freeKeyEvent : Nat → Option (BitVec 4)

/-- What `rng[7:0]` offers to the cycle with the given number, when no sample is listed: a free value (R16, R188, D31). -/
opaque freeRng : Nat → Byte

/-- What `tick` is in the cycle with the given number, when no sample is listed: a free value (R16, R186, U12). -/
opaque freeTick : Nat → Bool

end Sys2Proof.Config
end

