-- ==== Sys2Proof/Machine/State.lean ====
section
/-! DEFINITION. Everything the spec gives the machine, as plain data (R20 of 10_state.md), the reasons a step can stop, and
the state after reset (R38). -/

namespace Sys2Proof.Machine

/-- The input ports as sampled by one cycle (R16, R22). -/
structure Input where
  /-- `key_down[15:0]`: bit k is the level of key k. -/
  keyDown : BitVec 16
  /-- `key_event`: none, or the code of the key press reported in this cycle. -/
  keyEvent : Option (BitVec 4)
  /-- `rng[7:0]`: the random byte offered to this cycle. -/
  rng : Byte
  /-- `tick`: the timer clock's elapsed time exceeds 1/60 s. -/
  tick : Bool
  deriving DecidableEq, Repr

/-- The fault kinds of the hardware (R176 of 60_exceptions.md). These are recorded in `State.fault`; they are not the
model's own stops. -/
inductive FaultKind where
  /-- The word decodes to no instruction (R82). -/
  | decodeError
  /-- PC > 0xFFE at fetch (R55). -/
  | fetchBounds
  /-- A data access above 0xFFF, by DRW, LD B,Vx, LD [I],Vx or LD Vx,[I] (R56). -/
  | dataBounds
  /-- CALL with SP = 16 (R102). -/
  | stackOverflow
  /-- RET with SP = 0 (R100). -/
  | stackUnderflow
  /-- A write below 0x050, by LD B,Vx or LD [I],Vx (R57). -/
  | protectedWrite
  /-- SKP or SKNP with V[x] > 15 (R116). -/
  | keyRange
  deriving DecidableEq, Repr

/-- The fault record (R177). `word` is absent for FetchBounds; `addr` is the offending address of DataBounds and
ProtectedWrite, the key value of KeyRange, and absent otherwise. -/
structure FaultRecord where
  kind : FaultKind
  pc : Word
  word : Option Word
  addr : Option Word
  deriving DecidableEq, Repr

/-- Memory (R32, R50): the bytes that differ from what an unlisted address reads as (`Memory.unlisted`), addresses
strictly rising (`Memory.wf`). -/
abbrev Memory := List Host.Cell

/-- The framebuffer (R33, R160): 32 rows of 64 one-bit pixels. Row y holds the pixels of index y*64 to y*64 + 63, pixel (x, y) at
its bit x (entry 12). -/
abbrev FrameBuffer := Vector (BitVec 64) 32

/-- The complete state (R20), the level of the `reset` port, and the model's own input schedule (entry 4). -/
structure State where
  /-- `mem`, R32. -/
  mem : Memory
  /-- `V`, R23. -/
  v : Vector Byte 16
  /-- `I`, R27. -/
  i : Word
  /-- `PC`, R26. -/
  pc : Word
  /-- `stack`, R28. -/
  stack : Vector Word 16
  /-- `SP`, R29. -/
  sp : Byte
  /-- `DT`, R30. -/
  dt : Byte
  /-- `ST`, R31. -/
  st : Byte
  /-- `FB`, R33. -/
  fb : FrameBuffer
  /-- `dirty`, R34. -/
  dirty : Bool
  /-- `fault`, R35. -/
  fault : Option FaultRecord
  /-- The level of the `reset` port as the host last drove it (R22, R200). -/
  resetHeld : Bool
  /-- DESIGN CHOICE (entry 4): the samples of the coming cycles, the next cycle's first. When it is empty the sample is a
  free value. -/
  inputs : List Input
  /-- DESIGN CHOICE (entry 4): the number of the next sample, what the free values of Config are applied to. -/
  cycle : Nat
  deriving DecidableEq, Repr

/-- The model's own stops, which are not the hardware's faults. -/
inductive Fault where
  /-- Raised by CALL and RET when SP > 16, a state that R29's invariant rules out and for which the spec gives no slot
  (entry 7). Safe: the model stops where the spec says nothing. -/
  | noStackSlot
  deriving DecidableEq, Repr

/-- The model's refusals. -/
inductive Refusal where
  /-- Raised by `exec` for an instruction without a meaning; no arm does. Safe. -/
  | notModelled (mnemonic : String)
  deriving DecidableEq, Repr

/-- What one execute stage or one step answers. -/
abbrev Result := Host.Outcome State Fault Refusal

/-- The state after reset is released, with no ROM loaded (R38, R200). PC, SP, the font, `dirty` and `fault` are the spec's;
every `reset_draw` value is 0: DESIGN CHOICE (entries 1 and 2), the draw R39 allows a simulator. Unlisted font addresses read
the default FONT (entry 3). -/
def State.reset : State where
  mem := []
  v := Vector.replicate 16 0
  i := 0
  pc := 0x200
  stack := Vector.replicate 16 0
  sp := 0
  dt := 0
  st := 0
  fb := Vector.replicate 32 0
  dirty := false
  fault := none
  resetHeld := false
  inputs := []
  cycle := 0

end Sys2Proof.Machine
end

