-- ==== Sys2Proof/Machine/Ops.lean ====
section
/-! DEFINITION. The named operations over memory, registers and PC, and fault entry, the one shared operation that takes an
exception. -/

namespace Sys2Proof.Machine

/-! ## Memory (20_memory.md) -/

/-- What an address with no entry reads as: the default FONT byte at 0x000..0x04F (R38, R201, entry 3), and 0 elsewhere
(`reset_draw`: DESIGN CHOICE, entry 1). -/
def Memory.unlisted (a : Nat) : Byte := Config.font.getD a 0

/-- MemRead(a, 1) (R14, R58). -/
def Memory.read : Memory → Nat → Byte
  | [], a => Memory.unlisted a
  | (k, c) :: m, a => if k = a then c else Memory.read m a

/-- A cell at the front, unless its value is what the address reads as without it. -/
def Memory.consCell (a : Nat) (b : Byte) (m : Memory) : Memory :=
  if b = Memory.unlisted a then m else (a, b) :: m

/-- MemWrite(a, 1, b) (R14, R58), keeping the canonical form. -/
def Memory.write : Memory → Nat → Byte → Memory
  | [], a, b => Memory.consCell a b []
  | (k, c) :: m, a, b =>
    if a < k then Memory.consCell a b ((k, c) :: m)
    else if a = k then Memory.consCell a b m
    else (k, c) :: Memory.write m a b

/-- MemWrite of each byte of a list at rising addresses, the first at `base`. -/
def Memory.writeList (m : Memory) (base : Nat) : List Byte → Memory
  | [] => m
  | b :: bs => Memory.writeList (m.write base b) (base + 1) bs

/-- Every entry lies at or above `lo`, inside the 4096 bytes, above the entry before it, and differs from what its address
reads as without it. -/
def Memory.wfFrom (lo : Nat) : Memory → Bool
  | [] => true
  | (k, c) :: m => decide (lo ≤ k) && decide (k < 0x1000) && (c != Memory.unlisted k) && Memory.wfFrom (k + 1) m

/-- The canonical form of memory. -/
def Memory.wf (m : Memory) : Bool := Memory.wfFrom 0 m

/-- MemRead(a, 1) of a state. -/
def State.readByte (s : State) (a : Nat) : Byte := s.mem.read a

/-- The `n` bytes from address `a` up. -/
def State.readBytes (s : State) (a n : Nat) : List Byte := (List.range n).map fun r => s.readByte (a + r)

/-- MemWrite of a list of bytes from address `a` up. -/
def State.writeBytes (s : State) (a : Nat) (bs : List Byte) : State := { s with mem := s.mem.writeList a bs }

/-! ## Registers (R13, R23) -/

/-- V[x]. -/
def State.reg (s : State) (x : Reg) : Byte := s.v.get x

/-- V[x] <- b. -/
def State.setReg (s : State) (x : Reg) (b : Byte) : State := { s with v := s.v.set x.val b x.isLt }

/-- V[r] <- MemRead(a + r, 1) for r in 0..n-1 (R146). -/
def loadRegs (mem : Memory) (a : Nat) : Nat → Vector Byte 16 → Vector Byte 16
  | 0, v => v
  | r + 1, v => (loadRegs mem a r v).setIfInBounds r (mem.read (a + r))

/-- V[0], ..., V[n-1] (R145). -/
def State.firstRegs (s : State) (n : Nat) : List Byte := s.v.toList.take n

/-! ## The program counter (R94, R95) -/

/-- The default advance, PC <- PC +₁₆ 2 (R94). -/
def State.advance (s : State) : State := { s with pc := s.pc + 2 }

/-- The skip advance, PC <- PC +₁₆ (c ? 4 : 2) (R95). -/
def State.skipIf (s : State) (c : Bool) : State := { s with pc := s.pc + if c then 4 else 2 }

/-! ## The stack (R28, R29, D7) -/

/-- Store `a` in stack[SP] and then increment SP, where the slot exists. -/
def State.push (s : State) (a : Word) : Option State :=
  if h : s.sp.toNat < 16 then some { s with stack := s.stack.set s.sp.toNat a h, sp := s.sp + 1 } else none

/-- The slot below SP, where it exists. -/
def State.top (s : State) : Option Word := s.stack[s.sp.toNat - 1]?

/-! ## Faults (60_exceptions.md) -/

/-- The fault code of a kind (R176). -/
def FaultKind.code (k : FaultKind) : BitVec 3 :=
  match k with
  | .decodeError => 1
  | .fetchBounds => 2
  | .dataBounds => 3
  | .stackOverflow => 4
  | .stackUnderflow => 5
  | .protectedWrite => 6
  | .keyRange => 7

/-- `raise`: fault entry (R98, R180). The record is written, PC kept, and nothing else changes. There is no handler and no
return from a fault (R175, R181): only `reset` clears the record. -/
def State.raise (s : State) (kind : FaultKind) (word addr : Option Word) : State :=
  { s with fault := some { kind := kind, pc := s.pc, word := word, addr := addr } }

end Sys2Proof.Machine
end

