-- ==== Sys2Proof/Machine/Operands.lean ====
section
/-! DEFINITION. Where operands come from: the sampled input ports (R16, R22), and the one data addressing mode, I plus a small
offset (R147), with its checks (R56, R57). -/

namespace Sys2Proof.Machine

/-! ## Inputs -/

/-- The sample of this cycle: the first listed one, or free values (R8, R16, entry 4). -/
def State.input (s : State) : Input :=
  match s.inputs with
  | sample :: _ => sample
  | [] =>
    { keyDown := Config.freeKeyDown s.cycle, keyEvent := Config.freeKeyEvent s.cycle,
      rng := Config.freeRng s.cycle, tick := Config.freeTick s.cycle }

/-- The sample is used up: inputs are sampled once per cycle (R22). -/
def State.consumeInput (s : State) : State := { s with inputs := s.inputs.tail, cycle := s.cycle + 1 }

/-- `key_down[k]` (R16). -/
def State.keyIsDown (s : State) (k : Byte) : Bool := s.input.keyDown.getLsbD k.toNat

/-! ## Effective addresses -/

/-- ea = I + r, computed exactly (R56). -/
def State.ea (s : State) (r : Nat) : Nat := s.i.toNat + r

/-- The access set of offsets 0..n-1, rising (R56, R147). -/
def State.accessSet (s : State) (n : Nat) : List Nat := (List.range n).map s.ea

/-- The smallest ea above 0xFFF, if there is one (R56). -/
def State.outOfMemory (s : State) (n : Nat) : Option Nat := (s.accessSet n).find? fun a => 0xFFF < a

/-- The smallest ea below 0x050, if there is one (R57). -/
def State.inFont (s : State) (n : Nat) : Option Nat := (s.accessSet n).find? fun a => a < 0x050

/-- `k`, after the check of R56 for reads at offsets 0..n-1 by the instruction `ins`. -/
def State.ifReadable (s : State) (ins : Instr) (n : Nat) (k : State) : State :=
  match s.outOfMemory n with
  | some a => s.raise .dataBounds (some (encode ins)) (some (BitVec.ofNat 16 a))
  | none => k

/-- `k`, after the check of R57 for writes at offsets 0..n-1 by the instruction `ins`. -/
def State.ifOutsideFont (s : State) (ins : Instr) (n : Nat) (k : State) : State :=
  match s.inFont n with
  | some a => s.raise .protectedWrite (some (encode ins)) (some (BitVec.ofNat 16 a))
  | none => k

/-- `k`, after the checks of R56 and then R57 for writes at offsets 0..n-1 by the instruction `ins`. -/
def State.ifWritable (s : State) (ins : Instr) (n : Nat) (k : State) : State :=
  s.ifReadable ins n (s.ifOutsideFont ins n k)

end Sys2Proof.Machine
end

