-- ==== Sys2Proof/Machine/Cycle.lean ====
section
/-! DEFINITION. The cycle around the execute stage (40_cycle.md): fetch, decode, timer maintenance, and what ends a cycle
early. Machine/Step.lean only puts these together. -/

namespace Sys2Proof.Machine

/-- The fetched word, `mem[PC]` in bits 15:8 and `mem[PC+1]` in bits 7:0 (R92, R53). -/
def State.fetchWord (s : State) : Word := s.readByte s.pc.toNat ++ s.readByte (s.pc.toNat + 1)

/-- The instruction at PC, where PC can be fetched and the word decodes (R55, R92, R93). -/
def State.instrAtPc (s : State) : Option Instr :=
  if 0xFFE < s.pc.toNat then none
  else
    match decode s.fetchWord with
    | .error _ => none
    | .ok i => some i

/-- How a cycle begins (R90, stages 1 and 2). -/
inductive CycleStart where
  /-- The cycle ends here, in this state. -/
  | ends (t : State)
  /-- The instruction to execute. -/
  | runs (i : Instr)
  deriving DecidableEq, Repr

/-- Fetch and decode (R90 to R93). While `reset` is held no instruction runs (entry 9); a faulted core does not step
(R91). -/
def State.cycleStart (s : State) : CycleStart :=
  if s.resetHeld then .ends s
  else if s.fault.isSome then .ends s
  else if 0xFFE < s.pc.toNat then .ends (s.raise .fetchBounds none none)
  else
    match decode s.fetchWord with
    | .error _ => .ends (s.raise .decodeError (some s.fetchWord) none)
    | .ok i => .runs i

/-- One timer's count (R96, R185): down by 1 if above 0. -/
def countDown (t : Byte) : Byte := if 0 < t.toNat then t - 1 else t

/-- Timer maintenance (R96). -/
def State.maintainTimers (s : State) (tick : Bool) : State :=
  if tick then { s with dt := countDown s.dt, st := countDown s.st } else s

/-- LD Vx,K, the one instruction that can hold (R97). -/
def isKeyWait (i : Instr) : Bool :=
  match i with
  | .ldVK _ => true
  | _ => false

/-- The execute stage of `i` holds in `s` (R97, R153). -/
def State.holds (s : State) (i : Instr) : Bool := isKeyWait i && s.input.keyEvent.isNone

/-- The end of a cycle that executed `i` from `s` and came to `t`: timer maintenance unless it held or raised (R96 to R98),
and the sample is used up. -/
def State.endCycle (s : State) (i : Instr) (t : State) : State :=
  (if s.holds i || t.fault.isSome then t else t.maintainTimers s.input.tick).consumeInput

/-- `endCycle` on what the execute stage answered. -/
def State.finish (s : State) (i : Instr) (o : Result) : Result :=
  match o with
  | .next t => .next (s.endCycle i t)
  | .fault f => .fault f
  | .refused r => .refused r

/-- Both bytes of a word stored at an address, as a fetch reads them (R53). -/
def State.storeWord (s : State) (a : Nat) (w : Word) : State := s.writeBytes a (wordBytes w)

/-- `s`, ready to fetch: not held in reset, not faulted, and PC where a fetch is legal (its own, or PROG_BASE). -/
def State.readyToFetch (s : State) : State :=
  { s with resetHeld := false, fault := none, pc := if 0xFFE < s.pc.toNat then 0x200 else s.pc }

end Sys2Proof.Machine
end

