-- ==== Sys2Proof/Machine/Flags.lean ====
section
/-! DEFINITION. The flag computations, all into VF (R24, R120 of 43_alu.md): carry, NOT-borrow, the bit shifted out, and the
collision flag. -/

namespace Sys2Proof.Machine

/-- A condition as a flag value, 1 or 0. -/
def flag (c : Bool) : Byte := if c then 1 else 0

/-- Carry out of bit 7 of a + b (R127). -/
def carryOut (a b : Byte) : Byte := flag (255 < a.toNat + b.toNat)

/-- NOT-borrow of a - b: 1 when a ≥ b (R128, R130). -/
def notBorrow (a b : Byte) : Byte := flag (b.toNat ≤ a.toNat)

/-- The bit SHR shifts out, v & 1 (R129). -/
def lowBit (v : Byte) : Byte := v &&& 1

/-- The bit SHL shifts out, (v >> 7) & 1 (R131). -/
def highBit (v : Byte) : Byte := (v >>> 7) &&& 1

/-- V[0xF] <- f. -/
def State.setVF (s : State) (f : Byte) : State := s.setReg VF f

end Sys2Proof.Machine
end

