-- ==== Sys2Proof/Machine/Alu.lean ====
section
/-! DEFINITION. Register loads and ALU (43_alu.md). Statements run in the order the rules give and each reads the state the
previous ones left (R13, D17), which decides the result when x or y is 0xF (entry 13). -/

namespace Sys2Proof.Machine

/-- LD Vx,kk (R121). -/
def execLdK (x : Reg) (kk : Byte) (s : State) : Result := .next (s.setReg x kk).advance

/-- ADD Vx,kk (R122): no flag. -/
def execAddK (x : Reg) (kk : Byte) (s : State) : Result := .next (s.setReg x (s.reg x + kk)).advance

/-- LD Vx,Vy (R123). -/
def execLdV (x y : Reg) (s : State) : Result := .next (s.setReg x (s.reg y)).advance

/-- OR Vx,Vy (R124). -/
def execOrV (x y : Reg) (s : State) : Result := .next (s.setReg x (s.reg x ||| s.reg y)).advance

/-- AND Vx,Vy (R125). -/
def execAndV (x y : Reg) (s : State) : Result := .next (s.setReg x (s.reg x &&& s.reg y)).advance

/-- XOR Vx,Vy (R126). -/
def execXorV (x y : Reg) (s : State) : Result := .next (s.setReg x (s.reg x ^^^ s.reg y)).advance

/-- ADD Vx,Vy (R127): the sum's low byte first, the carry into VF last. -/
def execAddV (x y : Reg) (s : State) : Result :=
  let sum := (s.reg x).toNat + (s.reg y).toNat
  .next ((s.setReg x (BitVec.ofNat 8 sum)).setVF (carryOut (s.reg x) (s.reg y))).advance

/-- SUB Vx,Vy (R128): VF first, then the difference of V as just updated. -/
def execSubV (x y : Reg) (s : State) : Result :=
  let t := s.setVF (notBorrow (s.reg x) (s.reg y))
  .next (t.setReg x (t.reg x - t.reg y)).advance

/-- SHR Vx (R129): VF first, then the shift of V as just updated. -/
def execShr (x : Reg) (s : State) : Result :=
  let t := s.setVF (lowBit (s.reg x))
  .next (t.setReg x (t.reg x >>> 1)).advance

/-- SUBN Vx,Vy (R130): VF first, then the difference of V as just updated. -/
def execSubnV (x y : Reg) (s : State) : Result :=
  let t := s.setVF (notBorrow (s.reg y) (s.reg x))
  .next (t.setReg x (t.reg y - t.reg x)).advance

/-- SHL Vx (R131): VF first, then the shift of V as just updated. -/
def execShl (x : Reg) (s : State) : Result :=
  let t := s.setVF (highBit (s.reg x))
  .next (t.setReg x (t.reg x <<< 1)).advance

/-- RND Vx,kk (R132): the cycle's random byte, masked. -/
def execRnd (x : Reg) (kk : Byte) (s : State) : Result := .next (s.setReg x (s.input.rng &&& kk)).advance

end Sys2Proof.Machine
end

