-- ==== Sys2Proof/Machine/Control.lean ====
section
/-! DEFINITION. Control transfer (41_control_flow.md): each assigns PC whole and takes no default advance (R94). -/

namespace Sys2Proof.Machine

/-- RET (R100). -/
def execRet (s : State) : Result :=
  if s.sp = 0 then .next (s.raise .stackUnderflow (some (encode .ret)) none)
  else
    match s.top with
    | some a => .next { s with sp := s.sp - 1, pc := a }
    | none => .fault .noStackSlot

/-- JP addr (R101). -/
def execJp (addr : Word) (s : State) : Result := .next { s with pc := addr }

/-- CALL addr (R102): pushes the address of the next instruction. -/
def execCall (addr : Word) (s : State) : Result :=
  if s.sp = 16 then .next (s.raise .stackOverflow (some (encode (.call addr))) none)
  else
    match s.push (s.pc + 2) with
    | some t => .next { t with pc := addr }
    | none => .fault .noStackSlot

/-- JP V0,addr (R103): the sum is not masked. -/
def execJpV0 (addr : Word) (s : State) : Result :=
  .next { s with pc := (addr &&& 0x0FFF) + zext16 (s.reg 0) }

end Sys2Proof.Machine
end

