-- ==== Sys2Proof/Machine/Framebuffer.lean ====
section
/-! DEFINITION. The framebuffer and its sprite engine (R160 to R163 of 46_display.md). -/

namespace Sys2Proof.Machine

/-- Row y, 64 pixels (R160). -/
def FrameBuffer.row (fb : FrameBuffer) (y : Nat) : BitVec 64 := (fb[y]?).getD 0

/-- FB[x, y], the pixel of index y*64 + x (R13, R160). -/
def FrameBuffer.pixel (fb : FrameBuffer) (x y : Nat) : Bool := (fb.row y).getLsbD x

/-- A row with bit x set to b. -/
def setBit (row : BitVec 64) (x : Nat) (b : Bool) : BitVec 64 :=
  if b then row ||| BitVec.twoPow 64 x else row &&& ~~~(BitVec.twoPow 64 x)

/-- FB[x, y] <- b (R13). -/
def FrameBuffer.setPixel (fb : FrameBuffer) (x y : Nat) (b : Bool) : FrameBuffer :=
  fb.setIfInBounds y (setBit (fb.row y) x b)

/-- `fb_clear` (R161). -/
def FrameBuffer.clear : FrameBuffer := Vector.replicate 32 0

/-- Bit j of a sprite row, counted from the most significant (R162). -/
def spriteBit (row : Byte) (j : Nat) : Bool := row.getLsbD (7 - j)

/-- A draw in progress: whether a pixel was erased so far, and the framebuffer. -/
structure Drawing where
  erased : Bool
  fb : FrameBuffer
  deriving DecidableEq, Repr

/-- One sprite bit onto one pixel of row `py`: the body of R162's inner loop. -/
def Drawing.plot (x0 py : Nat) (row : Byte) (d : Drawing) (j : Nat) : Drawing :=
  let b := spriteBit row j
  let px := (x0 + j) % 64
  let old := d.fb.pixel px py
  { erased := d.erased || (b && old), fb := d.fb.setPixel px py (old ^^ b) }

/-- The eight bits of one row (R162). -/
def Drawing.row (x0 py : Nat) (row : Byte) (d : Drawing) : Drawing :=
  (List.range 8).foldl (Drawing.plot x0 py row) d

/-- The rows of a sprite from row number `i` on (R162). -/
def Drawing.rows (x0 y0 : Nat) : Nat → List Byte → Drawing → Drawing
  | _, [], d => d
  | i, row :: rest, d => Drawing.rows x0 y0 (i + 1) rest (d.row x0 ((y0 + i) % 32) row)

/-- `fb_draw` (R162): both coordinates wrap, each on its own axis. -/
def FrameBuffer.draw (fb : FrameBuffer) (bx by0 : Byte) (rows : List Byte) : Drawing :=
  Drawing.rows bx.toNat by0.toNat 0 rows { erased := false, fb := fb }

end Sys2Proof.Machine
end

