-- ==== Sys2Proof/Machine/Display.lean ====
section
/-! DEFINITION. The display instructions (46_display.md). -/

namespace Sys2Proof.Machine

/-- CLS (R164). -/
def execCls (s : State) : Result := .next { s with fb := FrameBuffer.clear, dirty := true }.advance

/-- DRW Vx,Vy,n (R165): the coordinates are read before VF is written. -/
def execDrw (x y : Reg) (n : Nat) (s : State) : Result :=
  let d := s.fb.draw (s.reg x) (s.reg y) (s.readBytes s.i.toNat n)
  .next (s.ifReadable (.drw x y n) n ({ s.setVF (flag d.erased) with fb := d.fb, dirty := true } : State).advance)

end Sys2Proof.Machine
end

