-- ==== Sys2Proof/Machine/IndexMemory.lean ====
section
/-! DEFINITION. The index register and memory transfers (44_index_memory.md). A transfer checks every address before it reads
or writes (R56, R57), and leaves I as it was (R147). -/

namespace Sys2Proof.Machine

/-- LD I,addr (R140). -/
def execLdI (addr : Word) (s : State) : Result := .next { s with i := addr &&& 0x0FFF }.advance

/-- ADD I,Vx (R141): modulo 2^16, no mask, no flag. -/
def execAddI (x : Reg) (s : State) : Result := .next { s with i := s.i + zext16 (s.reg x) }.advance

/-- LD F,Vx (R142): V[x] is not masked. -/
def execLdF (x : Reg) (s : State) : Result := .next { s with i := zext16 (s.reg x) * 5 }.advance

/-- The three decimal digits of a byte, hundreds first (R143). -/
def bcd (v : Byte) : List Byte :=
  let h := v.toNat / 100
  let t := (v.toNat - h * 100) / 10
  let o := v.toNat - h * 100 - t * 10
  [BitVec.ofNat 8 h, BitVec.ofNat 8 t, BitVec.ofNat 8 o]

/-- LD B,Vx (R144). -/
def execLdB (x : Reg) (s : State) : Result :=
  .next (s.ifWritable (.ldB x) 3 (s.writeBytes s.i.toNat (bcd (s.reg x))).advance)

/-- LD [I],Vx (R145): V0..Vx inclusive. -/
def execLdMI (x : Reg) (s : State) : Result :=
  .next (s.ifWritable (.ldMI x) (x.val + 1) (s.writeBytes s.i.toNat (s.firstRegs (x.val + 1))).advance)

/-- LD Vx,[I] (R146): V0..Vx inclusive. -/
def execLdVMI (x : Reg) (s : State) : Result :=
  .next (s.ifReadable (.ldVMI x) (x.val + 1)
    ({ s with v := loadRegs s.mem s.i.toNat (x.val + 1) s.v } : State).advance)

end Sys2Proof.Machine
end

