-- ==== Sys2Proof/Machine/Skips.lean ====
section
/-! DEFINITION. Conditional skips (42_skips.md): PC + 4 when the condition holds, PC + 2 otherwise (R95). -/

namespace Sys2Proof.Machine

/-- SE Vx,kk (R110). -/
def execSeK (x : Reg) (kk : Byte) (s : State) : Result := .next (s.skipIf (s.reg x == kk))

/-- SNE Vx,kk (R111). -/
def execSneK (x : Reg) (kk : Byte) (s : State) : Result := .next (s.skipIf (s.reg x != kk))

/-- SE Vx,Vy (R112). -/
def execSeV (x y : Reg) (s : State) : Result := .next (s.skipIf (s.reg x == s.reg y))

/-- SNE Vx,Vy (R113). -/
def execSneV (x y : Reg) (s : State) : Result := .next (s.skipIf (s.reg x != s.reg y))

/-- `k`, unless the key number in V[x] lies outside 0..15: then KeyRange (R116). -/
def State.ifKey (s : State) (ins : Instr) (x : Reg) (k : State) : State :=
  if 0xF < (s.reg x).toNat then s.raise .keyRange (some (encode ins)) (some (zext16 (s.reg x))) else k

/-- SKP Vx (R114). -/
def execSkp (x : Reg) (s : State) : Result := .next (s.ifKey (.skp x) x (s.skipIf (s.keyIsDown (s.reg x))))

/-- SKNP Vx (R115). -/
def execSknp (x : Reg) (s : State) : Result := .next (s.ifKey (.sknp x) x (s.skipIf (!s.keyIsDown (s.reg x))))

end Sys2Proof.Machine
end

