-- ==== Sys2Proof/Machine/TimersKeys.lean ====
section
/-! DEFINITION. Timer transfers and the key wait (45_timers_keys.md). Timer maintenance itself is part of the cycle
(Machine/Cycle.lean). -/

namespace Sys2Proof.Machine

/-- LD Vx,DT (R150): DT before this cycle's maintenance. -/
def execLdVDT (x : Reg) (s : State) : Result := .next (s.setReg x s.dt).advance

/-- LD DT,Vx (R151). -/
def execLdDTV (x : Reg) (s : State) : Result := .next { s with dt := s.reg x }.advance

/-- LD ST,Vx (R152). -/
def execLdSTV (x : Reg) (s : State) : Result := .next { s with st := s.reg x }.advance

/-- LD Vx,K (R153): holds, with no change to any state, while no key press is reported. -/
def execLdVK (x : Reg) (s : State) : Result :=
  .next
    (match s.input.keyEvent with
    | none => s
    | some code => (s.setReg x (code.setWidth 8)).advance)

end Sys2Proof.Machine
end

