-- ==== Sys2Proof/Machine/Step.lean ====
section
/-! DEFINITION. One step is one cycle (R90 of 40_cycle.md, D1). -/

namespace Sys2Proof.Machine

/-- One cycle: fetch, decode, execute, timer maintenance (R90). Every cycle uses up one sample of the inputs (R22). -/
def step (s : State) : Host.Outcome State Fault Refusal :=
  match s.cycleStart with
  | .ends t => .next t.consumeInput
  | .runs i => s.finish i (exec i s)

/-- `s` with an instruction of the opcode table stored where `step` fetches next (entry 14): the load of a program from
outside. -/
def State.withFetchWord (s : State) (nbits w : Nat) : State :=
  s.readyToFetch.storeWord s.readyToFetch.pc.toNat (BitVec.ofNat 16 (w % 2 ^ nbits))

end Sys2Proof.Machine
end

