-- ==== Sys2Proof/Machine/HostPort.lean ====
section
/-! DEFINITION. The block's boundary (R22 of 10_state.md): what the host may do between cycles (R21, R167, R200, R202), and the
output ports. No host move happens inside a cycle (R59, R99; entry 10). -/

namespace Sys2Proof.Machine

/-! ## Reset and load (70_reset_and_hazards.md) -/

/-- `reset_draw` (R8, R38, R39): the values the spec leaves free at reset. `bytes` are memory from 0x050 up; an address it
does not reach keeps the unlisted value. -/
structure ResetDraw where
  v : Vector Byte 16
  i : Word
  dt : Byte
  st : Byte
  stack : Vector Word 16
  fb : FrameBuffer
  bytes : List Byte
  deriving DecidableEq, Repr

/-- The draw `State.reset` takes: every value 0 (R39; entries 1 and 2). -/
def ResetDraw.zero : ResetDraw where
  v := Vector.replicate 16 0
  i := 0
  dt := 0
  st := 0
  stack := Vector.replicate 16 0
  fb := Vector.replicate 32 0
  bytes := []

/-- The default FONT as the parameter of R8 (D14, entry 3). -/
def defaultFont : Vector Byte 80 := ⟨Config.font.toArray, rfl⟩

/-- Memory at reset: the drawn bytes at 0x050..0xFFF, and FONT at 0x000..0x04F (R38, R201). -/
def resetMemory (font : Vector Byte 80) (bytes : List Byte) : Memory :=
  Memory.writeList (Memory.writeList [] 0x050 (bytes.take 0xFB0)) 0 font.toList

/-- The state after reset for any FONT and any draw (R38, R200). -/
def State.resetWith (font : Vector Byte 80) (draw : ResetDraw) : State where
  mem := resetMemory font draw.bytes
  v := draw.v
  i := draw.i
  pc := 0x200
  stack := draw.stack
  sp := 0
  dt := draw.dt
  st := draw.st
  fb := draw.fb
  dirty := false
  fault := none
  resetHeld := false
  inputs := []
  cycle := 0

/-- The host asserts `reset` (R200, 1): every state element takes its reset value, and the port stays at 1. The schedule of
inputs is the world's, not the block's, and goes on. -/
def State.assertReset (s : State) (font : Vector Byte 80) (draw : ResetDraw) : State :=
  { State.resetWith font draw with resetHeld := true, inputs := s.inputs, cycle := s.cycle }

/-- One write of the load port (R200, 2): refused, writing nothing, unless `reset` is held and the address is at or above
0x200. -/
def State.load (s : State) (addr : BitVec 12) (data : Byte) : State :=
  if s.resetHeld && decide (0x200 ≤ addr.toNat) then s.writeBytes addr.toNat [data] else s

/-- The host releases `reset` (R200, 3). -/
def State.releaseReset (s : State) : State := { s with resetHeld := false }

/-- The host pulses `dirty_clear` (R166, R167). -/
def State.clearDirty (s : State) : State := { s with dirty := false }

/-- The host's moves between cycles (R21). -/
inductive HostMove where
  /-- Assert `reset` with a FONT and a draw (R200, 1). -/
  | assertReset (font : Vector Byte 80) (draw : ResetDraw)
  /-- One write of the load port (R200, 2). -/
  | load (addr : BitVec 12) (data : Byte)
  /-- Release `reset` (R200, 3). -/
  | releaseReset
  /-- Pulse `dirty_clear` (R166). -/
  | clearDirty
  deriving DecidableEq, Repr

/-- What a host move does to the state. -/
def hostMove (m : HostMove) (s : State) : State :=
  match m with
  | .assertReset font draw => s.assertReset font draw
  | .load addr data => s.load addr data
  | .releaseReset => s.releaseReset
  | .clearDirty => s.clearDirty

/-- The load port driven with `load_addr = base`, `base + 1`, ... (R200, 2). -/
def State.loadFrom (s : State) (base : Nat) : List Byte → State
  | [] => s
  | b :: bs => State.loadFrom (s.load (BitVec.ofNat 12 base) b) (base + 1) bs

/-- Reset, load and release (R200). A ROM of more than 3584 bytes is refused (R202): there is no state after it. -/
def State.boot (s : State) (font : Vector Byte 80) (draw : ResetDraw) (rom : List Byte) : Option State :=
  if rom.length ≤ 3584 then some (((s.assertReset font draw).loadFrom 0x200 rom).releaseReset) else none

/-! ## Output ports -/

/-- `fb_rd_data` for `fb_rd_addr`, index y*64 + x (R22, R167). -/
def State.fbRead (s : State) (addr : BitVec 11) : Bool := s.fb.pixel (addr.toNat % 64) (addr.toNat / 64)

/-- `faulted` (R182). -/
def State.faulted (s : State) : Bool := s.fault.isSome

/-- `fault_code` (R182): the kind's code, or 0. -/
def State.faultCode (s : State) : BitVec 3 :=
  match s.fault with
  | some r => r.kind.code
  | none => 0

/-- `waiting_key` (R22, R37): the instruction at PC is LD Vx,K and the core is not faulted, whatever the `reset` port is.
DESIGN CHOICE (entry 16): 0 where PC is above 0xFFE. -/
def State.waitingKey (s : State) : Bool := s.fault.isNone && s.instrAtPc.any isKeyWait

/-- The cycle run from `s` completes: it neither faults nor holds (R18). -/
def State.completes (s : State) : Bool :=
  match s.cycleStart with
  | .ends _ => false
  | .runs i =>
    match exec i s with
    | .next t => !s.holds i && t.fault.isNone
    | .fault _ => false
    | .refused _ => false

/-- `clock_reset` during the cycle run from `s`: it pulses when a completed cycle consumes `tick = 1` (R96, R186). -/
def State.clockReset (s : State) : Bool := s.completes && s.input.tick

end Sys2Proof.Machine
end

