-- ==== Sys2Proof/Safety.lean ====
section
/-! DEFINITION. What claims are stated in: the invariant of the block, the states a session can come to, a clean step, and the
end of a test run (R210). -/

namespace Sys2Proof.Machine

/-- The invariant: memory in its canonical form; 0 ≤ SP ≤ 16 (R29); PC at most 0x10FE, the most any instruction writes (R94);
every occupied stack slot at most 0x1000, the most CALL pushes (R94, R102). -/
structure State.Inv (s : State) : Prop where
  memory : s.mem.wf = true
  depth : s.sp.toNat ≤ 16
  pcRange : s.pc.toNat ≤ 0x10FE
  slots : ∀ k : Fin 16, k.val < s.sp.toNat → (s.stack.get k).toNat ≤ 0x1000

/-- The states a session can come to: any reset with any FONT, draw and input samples, then host moves and cycles. -/
inductive Reachable : State → Prop where
  | powerOn (font : Vector Byte 80) (draw : ResetDraw) (samples : List Input) :
      Reachable { State.resetWith font draw with inputs := samples }
  | move (m : HostMove) (s : State) : Reachable s → Reachable (hostMove m s)
  | cycle (s t : State) : Reachable s → step s = .next t → Reachable t

/-- `s` may run an instruction in its next cycle: `reset` is not held, the core is not faulted, and PC can be fetched. -/
abbrev State.CanFetch (s : State) : Prop := s.resetHeld = false ∧ s.fault = none ∧ s.pc.toNat ≤ 0xFFE

/-- A safe step: the cycle ends in a next state that is not faulted. -/
def SafeStep (s : State) : Prop := ∃ t, step s = .next t ∧ t.fault = none

/-- `t` is `s` but for V and PC. Every byte of memory reads as before. -/
abbrev OnlyVAndPc (s t : State) : Prop :=
  t = { s with v := t.v, pc := t.pc } ∧ ∀ a, t.readByte a = s.readByte a

/-- `t` is `s` but for PC. Every register is as before, and every byte of memory reads as before. -/
abbrev OnlyPc (s t : State) : Prop :=
  t = { s with pc := t.pc } ∧ (∀ r, t.reg r = s.reg r) ∧ ∀ a, t.readByte a = s.readByte a

/-- `i` completes from `s`, writing V[x] with `b` and advancing PC by 2, and changes nothing else. -/
abbrev WritesOne (i : Instr) (s : State) (x : Reg) (b : Byte) : Prop :=
  ∃ t, exec i s = .next t ∧ OnlyVAndPc s t ∧ t.pc = s.pc + 2 ∧ ∀ r, t.reg r = if r = x then b else s.reg r

/-- `i` completes from `s`, writing V[x] with `b` and VF with `f` and advancing PC by 2, and changes nothing else. Where x
is F, `b` is what VF holds in the end. -/
abbrev WritesOneAndVF (i : Instr) (s : State) (x : Reg) (b f : Byte) : Prop :=
  ∃ t, exec i s = .next t ∧ OnlyVAndPc s t ∧ t.pc = s.pc + 2 ∧
    ∀ r, t.reg r = if r = x then b else if r = VF then f else s.reg r

/-- `i` completes from `s` with PC + 4 when `c` holds and PC + 2 otherwise, and changes nothing else. -/
abbrev SkipsWhen (i : Instr) (s : State) (c : Prop) : Prop :=
  ∃ t, exec i s = .next t ∧ OnlyPc s t ∧ (c → t.pc = s.pc + 4) ∧ (¬ c → t.pc = s.pc + 2)

/-- `i` raises a fault of the given kind from `s`: the record is written, and nothing else changes (R98). -/
abbrev Raises (i : Instr) (s : State) (kind : FaultKind) (addr : Option Word) : Prop :=
  exec i s = .next { s with fault := some { kind := kind, pc := s.pc, word := some (encode i), addr := addr } }

/-! ## Encoding patterns (R72): every word of the pattern decodes to the instruction with the word's fields -/

/-- The pattern `op nnn`. -/
abbrev DecodesA (op : Nat) (i : Word → Instr) : Prop := ∀ w, fieldOp w = op → decode w = .ok (i (fieldNNN w))

/-- The pattern `op x kk`. -/
abbrev DecodesXK (op : Nat) (i : Reg → Byte → Instr) : Prop :=
  ∀ w, fieldOp w = op → decode w = .ok (i (fieldX w) (fieldKK w))

/-- The pattern `op x y m`. -/
abbrev DecodesXY (op m : Nat) (i : Reg → Reg → Instr) : Prop :=
  ∀ w, fieldOp w = op → fieldN w = m → decode w = .ok (i (fieldX w) (fieldY w))

/-- The pattern `op x mm`. -/
abbrev DecodesX (op mm : Nat) (i : Reg → Instr) : Prop :=
  ∀ w, fieldOp w = op → (fieldKK w).toNat = mm → decode w = .ok (i (fieldX w))

/-- The pattern `8 x y m` with y ignored (R84). -/
abbrev DecodesIgnoringY (m : Nat) (i : Reg → Instr) : Prop :=
  ∀ w, fieldOp w = 0x8 → fieldN w = m → decode w = .ok (i (fieldX w))

/-! ## What instructions do -/

/-- The sprite bit that DRW Vx,Vy,n puts on pixel (px, py), in closed form (R162): row r of the sprite falls on py and bit j
of it on px, where r is py less the start row modulo 32 and j is px less the start column modulo 64. -/
def State.spriteAt (s : State) (x y : Reg) (n px py : Nat) : Bool :=
  let r := (py + 32 - (s.reg y).toNat % 32) % 32
  let j := (px + 64 - (s.reg x).toNat % 64) % 64
  decide (r < n) && decide (j < 8) && (s.readByte (s.i.toNat + r)).getLsbD (7 - j)

/-- The number of bytes an instruction accesses through I (R147): the offsets 0..n-1. -/
def accessLength (i : Instr) : Nat :=
  match i with
  | .drw _ _ n => n
  | .ldB _ => 3
  | .ldMI x | .ldVMI x => x.val + 1
  | _ => 0

/-- The instructions that write memory (R57, R147). -/
def writesMemory (i : Instr) : Bool :=
  match i with
  | .ldB _ | .ldMI _ => true
  | _ => false

/-- When the cycle of a core that may step raises each kind of fault (R176), in the priority of R178. -/
def State.mustRaise (s : State) (k : FaultKind) : Prop :=
  match k with
  | .fetchBounds => 0xFFE < s.pc.toNat
  | .decodeError => s.pc.toNat ≤ 0xFFE ∧ ∃ e, decode s.fetchWord = .error e
  | .dataBounds => s.pc.toNat ≤ 0xFFE ∧
      ∃ i, decode s.fetchWord = .ok i ∧ 0 < accessLength i ∧ 0xFFF < s.i.toNat + (accessLength i - 1)
  | .stackOverflow => s.pc.toNat ≤ 0xFFE ∧ ∃ addr, decode s.fetchWord = .ok (.call addr) ∧ s.sp.toNat = 16
  | .stackUnderflow => s.pc.toNat ≤ 0xFFE ∧ decode s.fetchWord = .ok .ret ∧ s.sp.toNat = 0
  | .protectedWrite => s.pc.toNat ≤ 0xFFE ∧
      ∃ i, decode s.fetchWord = .ok i ∧ writesMemory i = true ∧ s.i.toNat < 0x050
  | .keyRange => s.pc.toNat ≤ 0xFFE ∧
      ∃ x, (decode s.fetchWord = .ok (.skp x) ∨ decode s.fetchWord = .ok (.sknp x)) ∧ 15 < (s.reg x).toNat

/-- An outcome with another schedule of inputs in its next state. -/
def withSchedule (samples : List Input) (k : Nat) (o : Result) : Result :=
  match o with
  | .next t => .next { t with inputs := samples, cycle := k }
  | .fault f => .fault f
  | .refused r => .refused r

/-- The end of a test run (R210): a jump to itself at PC, or a faulted core. The hardware does not stop there. -/
def State.endOfRun (s : State) : Bool :=
  s.fault.isSome || decide (s.instrAtPc = some (.jp s.pc))

end Sys2Proof.Machine
end

