-- ==== Sys2Proof/Certificates/Slice0/Obligations.lean ====
section
/-! DEFINITION. What is claimed of the model, one statement each, for the provers. -/

open Sys2Proof Sys2Proof.Machine

/-! ## Encoding (30_encoding.md) -/

/-- Words written out from the patterns of R76 to R81, one or more of each family, decode to their instructions. -/
def Obligations.WrittenWordsDecode : Prop :=
  decode 0b0000000011100000 = .ok .cls ∧ decode 0b0000000011101110 = .ok .ret ∧
  decode 0b0001010001010110 = .ok (.jp 0x456) ∧ decode 0b0010001100000000 = .ok (.call 0x300) ∧
  decode 0b0011001101000010 = .ok (.seK 3 0x42) ∧ decode 0b0101000100100000 = .ok (.seV 1 2) ∧
  decode 0b1000000100100101 = .ok (.subV 1 2) ∧ decode 0b1000001110100110 = .ok (.shr 3) ∧
  decode 0b1010001011110000 = .ok (.ldI 0x2F0) ∧ decode 0b1101101111000101 = .ok (.drw 11 12 5) ∧
  decode 0b1110010110011110 = .ok (.skp 5) ∧ decode 0b1111010100001010 = .ok (.ldVK 5) ∧
  decode 0b1111001101100101 = .ok (.ldVMI 3) ∧ decode 0b0000000100100011 = .error (.illegalWord 0x0123)

/-- Decoding the encoding of a well-formed instruction gives it back, with every operand at every value. -/
def Obligations.DecodeOfEncode : Prop :=
  ∀ i : Instr, i.wellFormed = true → decode (encode i) = .ok i

/-- Every legal word decodes to a well-formed instruction that encodes to it, but for the y nibble of SHR and SHL, which the
decoder ignores and the encoder sets to 0 (R84). -/
def Obligations.EncodeOfDecode : Prop :=
  ∀ (w : Word) (i : Instr), decode w = .ok i →
    i.wellFormed = true ∧
    ((∀ x, i ≠ .shr x ∧ i ≠ .shl x) → encode i = w) ∧
    ((∃ x, i = .shr x ∨ i = .shl x) → encode i = w &&& 0xFF0F)

/-- The decoder is the opcode table read by mask and match in the order of R75, and no two rows match one word. -/
def Obligations.DecodeIsFirstMatchingRow : Prop :=
  ∀ w : Word, decode w = decodeByRows w ∧ (opcodeRows.filter fun r => r.matches w).length ≤ 1

/-- The illegal words are exactly those R82 lists, and the decoder names the word it rejects. -/
def Obligations.IllegalWordsAreThoseListed : Prop :=
  ∀ w : Word,
    ((∃ e, decode w = .error e) ↔
      (fieldOp w = 0x0 ∧ w ≠ 0x00E0 ∧ w ≠ 0x00EE) ∨
      (fieldOp w = 0x5 ∧ fieldN w ≠ 0) ∨
      (fieldOp w = 0x8 ∧ fieldN w ∈ [0x8, 0x9, 0xA, 0xB, 0xC, 0xD, 0xF]) ∨
      (fieldOp w = 0x9 ∧ fieldN w ≠ 0) ∨
      (fieldOp w = 0xE ∧ fieldKK w ∉ [0x9E, 0xA1]) ∨
      (fieldOp w = 0xF ∧ fieldKK w ∉ [0x07, 0x0A, 0x15, 0x18, 0x1E, 0x29, 0x33, 0x55, 0x65])) ∧
    (∀ e, decode w = .error e → e = .illegalWord w)

/-! ## The cycle (40_cycle.md) -/

/-- Fetch (R92, R53, R55): the word is big-endian from PC and PC + 1, and a PC above 0xFFE raises FetchBounds instead. -/
def Obligations.FetchIsBigEndianAndBounded : Prop :=
  ∀ s : State,
    s.fetchWord.toNat = (s.readByte s.pc.toNat).toNat * 256 + (s.readByte (s.pc.toNat + 1)).toNat ∧
    (s.resetHeld = false → s.fault = none → 0xFFE < s.pc.toNat →
      step s = .next
        ({ s with fault := some ⟨.fetchBounds, s.pc, none, none⟩ } : State).consumeInput)

/-- Decode and dispatch (R93): an undecodable word raises DecodeError with PC and the word; a decoded instruction is executed
once, followed by timer maintenance unless it held or raised (R96 to R98). The clauses on stops are the model's own: a stop of
the execute stage (noStackSlot, entry 7) is the step's, and no instruction is refused. -/
def Obligations.StepRunsDecodedInstruction : Prop :=
  ∀ s : State, s.CanFetch →
    (∀ e, decode s.fetchWord = .error e →
      step s = .next
        ({ s with fault := some ⟨.decodeError, s.pc, some s.fetchWord, none⟩ } : State).consumeInput) ∧
    (∀ i, decode s.fetchWord = .ok i →
      (∀ t, exec i s = .next t →
        step s = .next (if s.holds i ∨ t.fault ≠ none then t else t.maintainTimers s.input.tick).consumeInput) ∧
      (∀ f, exec i s = .fault f → step s = .fault f) ∧
      (∀ r, exec i s ≠ .refused r))

/-- Timer maintenance (R96, R185): after a completed execute stage, with tick = 1 each timer above 0 goes down by exactly 1 and
`clock_reset` pulses; with tick = 0 nothing changes. -/
def Obligations.TimersCountDownOncePerTickedCycle : Prop :=
  ∀ (s t : State) (i : Instr), s.CanFetch → decode s.fetchWord = .ok i → exec i s = .next t →
    t.fault = none → s.holds i = false →
    ∃ u, step s = .next u ∧
      u = { t with dt := u.dt, st := u.st, inputs := t.inputs.tail, cycle := t.cycle + 1 } ∧
      (s.input.tick = true → u.dt.toNat = t.dt.toNat - 1 ∧ u.st.toNat = t.st.toNat - 1) ∧
      (s.input.tick = false → u.dt = t.dt ∧ u.st = t.st) ∧
      s.clockReset = s.input.tick

/-- A held cycle (R97): LD Vx,K with no key press changes nothing, drives no `clock_reset`, and fetches the same word next; and
no other instruction holds. The model's own schedule of inputs moves on. -/
def Obligations.HeldCycleChangesNothing : Prop :=
  (∀ (s : State) (x : Reg), s.CanFetch → decode s.fetchWord = .ok (.ldVK x) → s.input.keyEvent = none →
    step s = .next s.consumeInput ∧ s.consumeInput.fetchWord = s.fetchWord ∧ s.clockReset = false ∧
      s.waitingKey = true) ∧
  (∀ (s : State) (i : Instr), s.holds i = true → ∃ x, i = .ldVK x)

/-- A faulting cycle (R98): it writes the fault record and nothing else, and drives no `clock_reset`. -/
def Obligations.FaultingCycleWritesOnlyTheRecord : Prop :=
  ∀ s t : State, s.fault = none → step s = .next t → t.fault ≠ none →
    t = { s with fault := t.fault, inputs := s.inputs.tail, cycle := s.cycle + 1 } ∧ s.clockReset = false

/-- A faulted core does not step (R91): the cycle changes no state and drives `clock_reset = 0`, and of the host's moves only
`reset` clears the record. -/
def Obligations.FaultedCoreOnlyLeavesByReset : Prop :=
  ∀ s : State, s.fault ≠ none →
    (step s = .next s.consumeInput ∧ s.clockReset = false) ∧
    (∀ m : HostMove, (∀ font draw, m ≠ .assertReset font draw) → (hostMove m s).fault = s.fault) ∧
    (∀ font draw, (hostMove (.assertReset font draw) s).fault = none)

/-- The model's choice (entry 9): while `reset` is held a cycle runs no instruction and changes no state. -/
def Obligations.NoCycleRunsWhileResetIsHeld : Prop :=
  ∀ s : State, s.resetHeld = true → step s = .next s.consumeInput ∧ s.clockReset = false

/-! ## Faults (60_exceptions.md) -/

/-- The fault record (R177): PC at the start of the cycle; the fetched word, absent for FetchBounds; and the address: the
smallest ea above 0xFFF for DataBounds, I for ProtectedWrite, the key value for KeyRange, absent otherwise. -/
def Obligations.FaultRecordHoldsItsFields : Prop :=
  ∀ (s t : State) (r : FaultRecord), s.fault = none → step s = .next t → t.fault = some r →
    r.pc = s.pc ∧
    (r.word = if r.kind = .fetchBounds then none else some s.fetchWord) ∧
    (r.kind = .dataBounds →
      ∃ a : Word, r.addr = some a ∧ 0xFFF < a.toNat ∧ s.i.toNat ≤ a.toNat ∧
        ∀ ea, s.i.toNat ≤ ea → 0xFFF < ea → a.toNat ≤ ea) ∧
    (r.kind = .protectedWrite → r.addr = some s.i) ∧
    (r.kind = .keyRange → r.addr = some (zext16 (s.reg (fieldX s.fetchWord)))) ∧
    (r.kind ≠ .dataBounds → r.kind ≠ .protectedWrite → r.kind ≠ .keyRange → r.addr = none)

/-- Which fault a cycle raises (R176), and that it is the first condition in the order of R178: each kind is raised exactly
under its condition, in every state where SP is in its range. -/
def Obligations.EachFaultIsRaisedExactlyWhenListed : Prop :=
  ∀ (s : State) (k : FaultKind), s.resetHeld = false → s.fault = none → s.sp.toNat ≤ 16 →
    ((∃ t r, step s = .next t ∧ t.fault = some r ∧ r.kind = k) ↔ s.mustRaise k)

/-- The fault report (R182) with the codes of R176. -/
def Obligations.FaultReportShowsTheCode : Prop :=
  (∀ s : State, (s.faulted = true ↔ s.fault ≠ none) ∧
    (s.fault = none → s.faultCode = 0) ∧ (∀ r, s.fault = some r → s.faultCode = r.kind.code)) ∧
  FaultKind.decodeError.code = 1 ∧ FaultKind.fetchBounds.code = 2 ∧ FaultKind.dataBounds.code = 3 ∧
  FaultKind.stackOverflow.code = 4 ∧ FaultKind.stackUnderflow.code = 5 ∧ FaultKind.protectedWrite.code = 6 ∧
  FaultKind.keyRange.code = 7

/-- The model's choice (entry 7): with SP above 16, which R29 excludes, CALL and RET stop under a name of their own. -/
def Obligations.StackPointerAbove16Stops : Prop :=
  ∀ (s : State) (addr : Word), 16 < s.sp.toNat →
    exec .ret s = .fault .noStackSlot ∧ exec (.call addr) s = .fault .noStackSlot

/-! ## Control transfer (41_control_flow.md) -/

/-- RET (R100), the word 00EE: a pop, or StackUnderflow when SP = 0; nothing else changes. -/
def Obligations.RetPopsOrUnderflows : Prop :=
  decode 0x00EE = .ok .ret ∧
  ∀ s : State,
    (s.sp = 0 → Raises .ret s .stackUnderflow none) ∧
    (∀ k : Fin 16, s.sp.toNat = k.val + 1 →
      ∃ t, exec .ret s = .next t ∧ t = { s with sp := t.sp, pc := t.pc } ∧ t.sp.toNat = k.val ∧ t.pc = s.stack.get k ∧
        ∀ a, t.readByte a = s.readByte a)

/-- JP addr (R101), the words 1nnn: PC is the address, and nothing else changes. -/
def Obligations.JpSetsPc : Prop :=
  DecodesA 0x1 .jp ∧
  ∀ (s : State) (addr : Word), ∃ t, exec (.jp addr) s = .next t ∧ OnlyPc s t ∧ t.pc = addr

/-- CALL addr (R102), the words 2nnn: a push of PC + 2 and a jump, or StackOverflow when SP = 16; nothing else changes. -/
def Obligations.CallPushesOrOverflows : Prop :=
  DecodesA 0x2 .call ∧
  ∀ (s : State) (addr : Word),
    (s.sp = 16 → Raises (.call addr) s .stackOverflow none) ∧
    (s.sp.toNat < 16 →
      ∃ t, exec (.call addr) s = .next t ∧ t = { s with stack := t.stack, sp := t.sp, pc := t.pc } ∧
        t.sp.toNat = s.sp.toNat + 1 ∧ t.pc = addr ∧
        (∀ k : Fin 16, t.stack.get k = if k.val = s.sp.toNat then s.pc + 2 else s.stack.get k) ∧
        ∀ a, t.readByte a = s.readByte a)

/-- JP V0,addr (R103), the words Bnnn: (addr & 0x0FFF) + V0, with no mask and no wrap, at most 0x10FE. -/
def Obligations.JpV0AddsV0 : Prop :=
  DecodesA 0xB .jpV0 ∧
  ∀ (s : State) (addr : Word), ∃ t, exec (.jpV0 addr) s = .next t ∧ OnlyPc s t ∧
    t.pc.toNat = addr.toNat % 0x1000 + (s.reg 0).toNat ∧ t.pc.toNat ≤ 0x10FE

/-- CALL, then RET at its target: PC is the word after the CALL, SP is as before, every slot below SP is as before, and
nothing else changed (C3). -/
def Obligations.RetReturnsPastTheCall : Prop :=
  ∀ (s : State) (addr : Word), s.sp.toNat < 16 →
    ∃ t u, exec (.call addr) s = .next t ∧ exec .ret t = .next u ∧
      u = { s with pc := s.pc + 2, stack := u.stack } ∧
      ∀ k : Fin 16, k.val ≠ s.sp.toNat → u.stack.get k = s.stack.get k

/-! ## Skips (42_skips.md) -/

/-- SE and SNE in their four forms (R110 to R113), the words 3xkk, 4xkk, 5xy0 and 9xy0. -/
def Obligations.ComparesSkip : Prop :=
  (DecodesXK 0x3 .seK ∧ DecodesXK 0x4 .sneK ∧ DecodesXY 0x5 0 .seV ∧ DecodesXY 0x9 0 .sneV) ∧
  ∀ (s : State) (x y : Reg) (kk : Byte),
    SkipsWhen (.seK x kk) s (s.reg x = kk) ∧ SkipsWhen (.sneK x kk) s (s.reg x ≠ kk) ∧
    SkipsWhen (.seV x y) s (s.reg x = s.reg y) ∧ SkipsWhen (.sneV x y) s (s.reg x ≠ s.reg y)

/-- SKP and SKNP (R114 to R116), the words Ex9E and ExA1: a key number above 15 raises KeyRange, unmasked; otherwise the level of the key decides. -/
def Obligations.KeySkipsReadTheLevel : Prop :=
  (DecodesX 0xE 0x9E .skp ∧ DecodesX 0xE 0xA1 .sknp) ∧
  ∀ (s : State) (x : Reg),
    ((s.reg x).toNat ≤ 15 →
      SkipsWhen (.skp x) s (s.input.keyDown.getLsbD (s.reg x).toNat = true) ∧
      SkipsWhen (.sknp x) s (s.input.keyDown.getLsbD (s.reg x).toNat = false)) ∧
    (15 < (s.reg x).toNat →
      Raises (.skp x) s .keyRange (some (zext16 (s.reg x))) ∧
      Raises (.sknp x) s .keyRange (some (zext16 (s.reg x))))

/-! ## Loads and ALU (43_alu.md) -/

/-- The loads, ADD Vx,kk and the bitwise operations (R121 to R126), the words 6xkk, 7xkk and 8xy0 to 8xy3: V[x] alone is written, no flag, +₈ wrapping. -/
def Obligations.LoadsAndBitwiseWriteOnlyVx : Prop :=
  (DecodesXK 0x6 .ldK ∧ DecodesXK 0x7 .addK ∧ DecodesXY 0x8 0x0 .ldV ∧ DecodesXY 0x8 0x1 .orV ∧ DecodesXY 0x8 0x2 .andV ∧
    DecodesXY 0x8 0x3 .xorV) ∧
  ∀ (s : State) (x y : Reg) (kk : Byte),
    WritesOne (.ldK x kk) s x kk ∧
    WritesOne (.addK x kk) s x (BitVec.ofNat 8 (((s.reg x).toNat + kk.toNat) % 256)) ∧
    WritesOne (.ldV x y) s x (s.reg y) ∧
    WritesOne (.orV x y) s x (s.reg x ||| s.reg y) ∧
    WritesOne (.andV x y) s x (s.reg x &&& s.reg y) ∧
    WritesOne (.xorV x y) s x (s.reg x ^^^ s.reg y)

/-- ADD Vx,Vy (R127), the words 8xy4: the low byte of the sum, and the carry into VF last, so that VF is the carry even when x is F. -/
def Obligations.AddWritesSumThenCarry : Prop :=
  DecodesXY 0x8 0x4 .addV ∧
  ∀ (s : State) (x y : Reg),
    let sum := (s.reg x).toNat + (s.reg y).toNat
    let carry : Byte := if sum > 255 then 1 else 0
    WritesOneAndVF (.addV x y) s x (if x = VF then carry else BitVec.ofNat 8 (sum % 256)) carry

/-- SUB Vx,Vy (R128), the words 8xy5: VF first (1 when V[x] ≥ V[y]), then the difference modulo 256 of V as just updated, in
every corner case of x or y being F. -/
def Obligations.SubWritesNotBorrowFirst : Prop :=
  DecodesXY 0x8 0x5 .subV ∧
  ∀ (s : State) (x y : Reg),
    let f : Byte := if (s.reg y).toNat ≤ (s.reg x).toNat then 1 else 0
    (x ≠ VF → y ≠ VF →
      WritesOneAndVF (.subV x y) s x (BitVec.ofNat 8 ((256 + (s.reg x).toNat - (s.reg y).toNat) % 256)) f) ∧
    (x = VF → y ≠ VF → WritesOneAndVF (.subV x y) s x (f - s.reg y) f) ∧
    (x ≠ VF → y = VF → WritesOneAndVF (.subV x y) s x (s.reg x - f) f) ∧
    (x = VF → y = VF → WritesOneAndVF (.subV x y) s x 0 f)

/-- SUBN Vx,Vy (R130), the words 8xy7: VF first (1 when V[y] ≥ V[x]), then the reverse difference of V as just updated, in
every corner case of x or y being F. -/
def Obligations.SubnWritesNotBorrowFirst : Prop :=
  DecodesXY 0x8 0x7 .subnV ∧
  ∀ (s : State) (x y : Reg),
    let f : Byte := if (s.reg x).toNat ≤ (s.reg y).toNat then 1 else 0
    (x ≠ VF → y ≠ VF →
      WritesOneAndVF (.subnV x y) s x (BitVec.ofNat 8 ((256 + (s.reg y).toNat - (s.reg x).toNat) % 256)) f) ∧
    (x = VF → y ≠ VF → WritesOneAndVF (.subnV x y) s x (s.reg y - f) f) ∧
    (x ≠ VF → y = VF → WritesOneAndVF (.subnV x y) s x (f - s.reg x) f) ∧
    (x = VF → y = VF → WritesOneAndVF (.subnV x y) s x 0 f)

/-- SHR Vx and SHL Vx (R129, R131), the words 8xy6 and 8xyE for every y: VF is the bit shifted out, written first; with x = F
the shift is of the flag just written. -/
def Obligations.ShiftsWriteTheBitShiftedOut : Prop :=
  (DecodesIgnoringY 0x6 .shr ∧ DecodesIgnoringY 0xE .shl) ∧
  ∀ (s : State) (x : Reg),
    let v := (s.reg x).toNat
    (x ≠ VF →
      WritesOneAndVF (.shr x) s x (BitVec.ofNat 8 (v / 2)) (BitVec.ofNat 8 (v % 2)) ∧
      WritesOneAndVF (.shl x) s x (BitVec.ofNat 8 (2 * v % 256)) (BitVec.ofNat 8 (v / 128))) ∧
    (x = VF →
      WritesOneAndVF (.shr x) s x 0 0 ∧
      WritesOneAndVF (.shl x) s x (BitVec.ofNat 8 (2 * (v / 128))) (BitVec.ofNat 8 (2 * (v / 128))))

/-- RND Vx,kk (R132), the words Cxkk: V[x] is the cycle's random byte masked by kk. -/
def Obligations.RndMasksTheRandomByte : Prop :=
  DecodesXK 0xC .rnd ∧
  ∀ (s : State) (x : Reg) (kk : Byte), WritesOne (.rnd x kk) s x (s.input.rng &&& kk)

/-! ## Index register and memory (44_index_memory.md) -/

/-- LD I, ADD I and LD F (R140 to R142), the words Annn, Fx1E and Fx29: the 12 low bits of the address; I + V[x] modulo 2^16,
no flag; 5 times V[x], unmasked. -/
def Obligations.IndexWritesChangeOnlyI : Prop :=
  (DecodesA 0xA .ldI ∧ DecodesX 0xF 0x1E .addI ∧ DecodesX 0xF 0x29 .ldF) ∧
  ∀ (s : State) (x : Reg) (addr : Word),
    (∃ t, exec (.ldI addr) s = .next t ∧ t = { s with i := t.i, pc := s.pc + 2 } ∧ t.i.toNat = addr.toNat % 0x1000 ∧
      ∀ a, t.readByte a = s.readByte a) ∧
    (∃ t, exec (.addI x) s = .next t ∧ t = { s with i := t.i, pc := s.pc + 2 } ∧
      t.i.toNat = (s.i.toNat + (s.reg x).toNat) % 0x10000 ∧ ∀ a, t.readByte a = s.readByte a) ∧
    (∃ t, exec (.ldF x) s = .next t ∧ t = { s with i := t.i, pc := s.pc + 2 } ∧ t.i.toNat = (s.reg x).toNat * 5 ∧
      ∀ a, t.readByte a = s.readByte a)

/-- The BCD digits (R143), for every byte. -/
def Obligations.BcdGivesTheDecimalDigits : Prop :=
  ∀ v : Byte, ∃ h t o : Byte, bcd v = [h, t, o] ∧
    h.toNat = v.toNat / 100 ∧ t.toNat = v.toNat % 100 / 10 ∧ o.toNat = v.toNat % 10 ∧ h.toNat ≤ 2 ∧ t.toNat ≤ 9 ∧ o.toNat ≤ 9

/-- LD B,Vx (R144), the words Fx33: the three digits at I, I + 1 and I + 2, or a fault; I and every other byte as before. -/
def Obligations.LdBStoresTheDigits : Prop :=
  DecodesX 0xF 0x33 .ldB ∧
  ∀ (s : State) (x : Reg), s.mem.wf = true →
    (0xFFF < s.i.toNat + 2 → Raises (.ldB x) s .dataBounds (some (BitVec.ofNat 16 (max s.i.toNat 0x1000)))) ∧
    (s.i.toNat < 0x050 → Raises (.ldB x) s .protectedWrite (some s.i)) ∧
    (0x050 ≤ s.i.toNat → s.i.toNat + 2 ≤ 0xFFF →
      ∃ t, exec (.ldB x) s = .next t ∧ t = { s with mem := t.mem, pc := s.pc + 2 } ∧
        (t.readByte s.i.toNat).toNat = (s.reg x).toNat / 100 ∧
        (t.readByte (s.i.toNat + 1)).toNat = (s.reg x).toNat % 100 / 10 ∧
        (t.readByte (s.i.toNat + 2)).toNat = (s.reg x).toNat % 10 ∧
        ∀ a, a < s.i.toNat ∨ s.i.toNat + 2 < a → t.readByte a = s.readByte a)

/-- LD [I],Vx (R145), the words Fx55: V0..Vx inclusive from I up, or a fault; I and every other byte as before. -/
def Obligations.LdMIStoresTheRegisters : Prop :=
  DecodesX 0xF 0x55 .ldMI ∧
  ∀ (s : State) (x : Reg), s.mem.wf = true →
    (0xFFF < s.i.toNat + x.val → Raises (.ldMI x) s .dataBounds (some (BitVec.ofNat 16 (max s.i.toNat 0x1000)))) ∧
    (s.i.toNat < 0x050 → Raises (.ldMI x) s .protectedWrite (some s.i)) ∧
    (0x050 ≤ s.i.toNat → s.i.toNat + x.val ≤ 0xFFF →
      ∃ t, exec (.ldMI x) s = .next t ∧ t = { s with mem := t.mem, pc := s.pc + 2 } ∧
        (∀ r : Reg, r ≤ x → t.readByte (s.i.toNat + r.val) = s.reg r) ∧
        ∀ a, a < s.i.toNat ∨ s.i.toNat + x.val < a → t.readByte a = s.readByte a)

/-- LD Vx,[I] (R146), the words Fx65: V0..Vx inclusive from I up, the font included, or a fault; I as before. -/
def Obligations.LdVMILoadsTheRegisters : Prop :=
  DecodesX 0xF 0x65 .ldVMI ∧
  ∀ (s : State) (x : Reg),
    (0xFFF < s.i.toNat + x.val → Raises (.ldVMI x) s .dataBounds (some (BitVec.ofNat 16 (max s.i.toNat 0x1000)))) ∧
    (s.i.toNat + x.val ≤ 0xFFF →
      ∃ t, exec (.ldVMI x) s = .next t ∧ OnlyVAndPc s t ∧ t.pc = s.pc + 2 ∧
        ∀ r : Reg, t.reg r = if r ≤ x then s.readByte (s.i.toNat + r.val) else s.reg r)

/-- Self-modifying code (R63, R205): a word stored by LD [I],Vx is what the next fetch at its address reads, the first byte in
the high half. -/
def Obligations.StoredBytesAreFetched : Prop :=
  ∀ (s t : State) (x r : Reg) (p : Word), s.mem.wf = true → exec (.ldMI x) s = .next t → t.fault = none →
    r < x → p.toNat = s.i.toNat + r.val →
    ({ t with pc := p } : State).fetchWord = s.reg r ++ s.reg (r + 1)

/-! ## Timers and keys (45_timers_keys.md) -/

/-- LD Vx,DT, LD DT,Vx and LD ST,Vx (R150 to R152), the words Fx07, Fx15 and Fx18, at the execute stage: each writes its one
destination, from before timer maintenance. -/
def Obligations.TimerTransfersMoveTheByte : Prop :=
  (DecodesX 0xF 0x07 .ldVDT ∧ DecodesX 0xF 0x15 .ldDTV ∧ DecodesX 0xF 0x18 .ldSTV) ∧
  ∀ (s : State) (x : Reg),
    WritesOne (.ldVDT x) s x s.dt ∧
    (∃ t, exec (.ldDTV x) s = .next t ∧ t = { s with dt := s.reg x, pc := s.pc + 2 } ∧ ∀ a, t.readByte a = s.readByte a) ∧
    (∃ t, exec (.ldSTV x) s = .next t ∧ t = { s with st := s.reg x, pc := s.pc + 2 } ∧ ∀ a, t.readByte a = s.readByte a)

/-- The timer write hazard (R206): with tick = 1 the written value is counted down in the same cycle, unless it was 0; with
tick = 0 it stays. -/
def Obligations.WrittenTimerCountsDownInTheSameCycle : Prop :=
  ∀ (s : State) (x : Reg), s.CanFetch →
    let left := (s.reg x).toNat - if s.input.tick then 1 else 0
    (decode s.fetchWord = .ok (.ldDTV x) → ∃ t, step s = .next t ∧ t.dt.toNat = left) ∧
    (decode s.fetchWord = .ok (.ldSTV x) → ∃ t, step s = .next t ∧ t.st.toNat = left)

/-- LD Vx,K (R153), the words Fx0A: with no key press the execute stage changes nothing; a press writes its code, at most 15, into V[x]. -/
def Obligations.KeyWaitTakesThePress : Prop :=
  DecodesX 0xF 0x0A .ldVK ∧
  ∀ (s : State) (x : Reg),
    (s.input.keyEvent = none → exec (.ldVK x) s = .next s) ∧
    (∀ code, s.input.keyEvent = some code → WritesOne (.ldVK x) s x (BitVec.ofNat 8 code.toNat) ∧ code.toNat ≤ 15)

/-! ## Display (46_display.md) -/

/-- CLS (R164, R161), the word 00E0: every pixel is 0 and `dirty` is set; VF and everything else is as before. -/
def Obligations.ClsClearsEveryPixel : Prop :=
  decode 0x00E0 = .ok .cls ∧
  ∀ s : State, ∃ t, exec .cls s = .next t ∧ t = { s with fb := t.fb, dirty := true, pc := s.pc + 2 } ∧
    (∀ px py, t.fb.pixel px py = false) ∧ ∀ a, t.readByte a = s.readByte a

/-- DRW Vx,Vy,n (R162, R163, and the pseudocode of R165), the words Dxyn: a sprite in memory is XORed onto the framebuffer at coordinates that wrap on each axis; VF
is 1 exactly when a lit pixel met a sprite bit; `dirty` is set; nothing else changes. Past memory it raises DataBounds. -/
def Obligations.DrwXorsTheSprite : Prop :=
  (∀ w, fieldOp w = 0xD → decode w = .ok (.drw (fieldX w) (fieldY w) (fieldN w))) ∧
  ∀ (s : State) (x y : Reg) (n : Nat), n ≤ 15 →
    (0 < n → 0xFFF < s.i.toNat + n - 1 →
      Raises (.drw x y n) s .dataBounds (some (BitVec.ofNat 16 (max s.i.toNat 0x1000)))) ∧
    (n = 0 ∨ s.i.toNat + n - 1 ≤ 0xFFF →
      ∃ t, exec (.drw x y n) s = .next t ∧
        t = { s with v := t.v, fb := t.fb, dirty := true, pc := s.pc + 2 } ∧
        (∀ r, r ≠ VF → t.reg r = s.reg r) ∧
        (∀ px py, px < 64 → py < 32 → t.fb.pixel px py = (s.fb.pixel px py ^^ s.spriteAt x y n px py)) ∧
        ((∃ px py, px < 64 ∧ py < 32 ∧ s.fb.pixel px py = true ∧ s.spriteAt x y n px py = true) → t.reg VF = 1) ∧
        ((∀ px py, px < 64 → py < 32 → s.fb.pixel px py = true → s.spriteAt x y n px py = false) → t.reg VF = 0) ∧
        ∀ a, t.readByte a = s.readByte a)

/-- One DRW word run twice, for every x and y (R162, R163). The second draw XORs the sprite at the coordinates the first left,
which are the first's unless x or y is F, the flag. Where the two places are the same modulo the screen: the framebuffer is
restored exactly; the second draw reports 1 exactly when the first lit some pixel, so from a blank framebuffer exactly when the
sprite has a 1 bit. What the second draw reports is the model's reading of R162 where the spec contradicts itself (entry 20). -/
def Obligations.DrawingTwiceRestoresTheFramebuffer : Prop :=
  ∀ (s : State) (x y : Reg) (n : Nat), n ≤ 15 → (n = 0 ∨ s.i.toNat + n - 1 ≤ 0xFFF) →
    ∃ t u, exec (.drw x y n) s = .next t ∧ exec (.drw x y n) t = .next u ∧
      (∀ r, r ≠ VF → t.reg r = s.reg r ∧ u.reg r = s.reg r) ∧
      (t.reg VF = 0 ∨ t.reg VF = 1) ∧ (u.reg VF = 0 ∨ u.reg VF = 1) ∧
      (∀ px py, px < 64 → py < 32 →
        u.fb.pixel px py = ((s.fb.pixel px py ^^ s.spriteAt x y n px py) ^^ t.spriteAt x y n px py)) ∧
      ((t.reg x).toNat % 64 = (s.reg x).toNat % 64 → (t.reg y).toNat % 32 = (s.reg y).toNat % 32 →
        u.fb = s.fb ∧
        (u.reg VF = 1 ↔
          ∃ px py, px < 64 ∧ py < 32 ∧ s.fb.pixel px py = false ∧ s.spriteAt x y n px py = true) ∧
        (s.fb = FrameBuffer.clear → (u.reg VF = 1 ↔ ∃ r, r < n ∧ s.readByte (s.i.toNat + r) ≠ 0)))

/-- The corner case of R165 that the second draw returns 1 whenever the sprite has a 1 bit does not follow from R162 (entry 20):
where every sprite bit meets a lit pixel, the first draw reports 1 and the second 0. -/
def Obligations.SecondDrawReportsZeroOverALitSprite : Prop :=
  ∃ (s t u : State) (x y : Reg) (n : Nat), x ≠ VF ∧ y ≠ VF ∧ n ≤ 15 ∧ (∃ r, r < n ∧ s.readByte (s.i.toNat + r) ≠ 0) ∧
    exec (.drw x y n) s = .next t ∧ exec (.drw x y n) t = .next u ∧ t.fault = none ∧ t.reg VF = 1 ∧ u.reg VF = 0

/-! ## Whole-machine rules -/

/-- Which instructions write which general registers (R25), in every execute stage that answers a next state. -/
def Obligations.OnlyListedInstructionsWriteV : Prop :=
  ∀ (i : Instr) (s t : State) (r : Reg), exec i s = .next t → t.reg r ≠ s.reg r →
    (∃ kk, i = .ldK r kk ∨ i = .addK r kk ∨ i = .rnd r kk) ∨
    (∃ y, i = .ldV r y ∨ i = .orV r y ∨ i = .andV r y ∨ i = .xorV r y) ∨ i = .ldVDT r ∨ i = .ldVK r ∨
    (∃ x y, (r = x ∨ r = VF) ∧ (i = .addV x y ∨ i = .subV x y ∨ i = .subnV x y ∨ i = .shr x ∨ i = .shl x)) ∨
    (∃ x y n, r = VF ∧ i = .drw x y n) ∨ (∃ x, r ≤ x ∧ i = .ldVMI x)

/-- Which instructions write the rest of the state: I, the stack and SP, the timers, the framebuffer and `dirty`, memory
(R27 to R34, R66), in every execute stage that answers a next state. -/
def Obligations.OnlyListedInstructionsWriteTheRest : Prop :=
  ∀ (i : Instr) (s t : State), exec i s = .next t →
    (t.i ≠ s.i → (∃ a, i = .ldI a) ∨ ∃ x, i = .addI x ∨ i = .ldF x) ∧
    (t.stack ≠ s.stack → ∃ a, i = .call a) ∧ (t.sp ≠ s.sp → i = .ret ∨ ∃ a, i = .call a) ∧
    (t.dt ≠ s.dt → ∃ x, i = .ldDTV x) ∧ (t.st ≠ s.st → ∃ x, i = .ldSTV x) ∧
    (t.fb ≠ s.fb → i = .cls ∨ ∃ x y n, i = .drw x y n) ∧ (t.dirty ≠ s.dirty → i = .cls ∨ ∃ x y n, i = .drw x y n) ∧
    (t.mem ≠ s.mem → ∃ x, i = .ldB x ∨ i = .ldMI x) ∧ t.resetHeld = s.resetHeld

/-- The inputs reach the execute stage only through their own instructions: for any instruction but RND, SKP, SKNP and
LD Vx,K, the outcome is the same under every sample. -/
def Obligations.OtherInstructionsIgnoreTheInputs : Prop :=
  ∀ (i : Instr) (s : State) (samples : List Input) (k : Nat),
    (∀ x kk, i ≠ .rnd x kk) → (∀ x, i ≠ .skp x ∧ i ≠ .sknp x ∧ i ≠ .ldVK x) →
    exec i { s with inputs := samples, cycle := k } = withSchedule samples k (exec i s)

/-- The font is never written: no cycle, and no host move but `reset`, changes a byte of 0x000..0x04F (R51, R57, C7). -/
def Obligations.FontBytesNeverChange : Prop :=
  (∀ (s t : State) (a : Nat), s.mem.wf = true → step s = .next t → a < 0x050 → t.readByte a = s.readByte a) ∧
  (∀ (s : State) (m : HostMove) (a : Nat), s.mem.wf = true → (∀ font draw, m ≠ .assertReset font draw) → a < 0x050 →
    (hostMove m s).readByte a = s.readByte a)

/-- Equal memories are equal data: canonical memories that read alike are equal. -/
def Obligations.CanonicalMemoriesThatReadAlikeAreEqual : Prop :=
  ∀ m m' : Memory, m.wf = true → m'.wf = true → (∀ a, m.read a = m'.read a) → m = m'

/-! ## Reset, load and the invariant (10_state.md, 70_reset_and_hazards.md) -/

/-- The state after reset, load and release (R38, R200 to R202): for every FONT, every draw and every ROM of at most 3584
bytes; a longer ROM is refused. -/
def Obligations.BootLeavesTheResetState : Prop :=
  ∀ (s : State) (font : Vector Byte 80) (draw : ResetDraw) (rom : List Byte),
    (s.boot font draw rom = none ↔ 3584 < rom.length) ∧
    ∀ t, s.boot font draw rom = some t →
      t.pc = 0x200 ∧ t.sp = 0 ∧ t.dirty = false ∧ t.fault = none ∧ t.resetHeld = false ∧
      t.v = draw.v ∧ t.i = draw.i ∧ t.dt = draw.dt ∧ t.st = draw.st ∧ t.stack = draw.stack ∧ t.fb = draw.fb ∧
      (∀ d : Fin 80, t.readByte d.val = font.get d) ∧
      (∀ (k : Nat) (b : Byte), rom[k]? = some b → t.readByte (0x200 + k) = b) ∧
      (∀ (k : Nat) (b : Byte), draw.bytes[k]? = some b → 0x050 + k < 0x1000 →
        (0x050 + k < 0x200 ∨ 0x200 + rom.length ≤ 0x050 + k) → t.readByte (0x050 + k) = b)

/-- A write of the load port is refused, writing nothing, unless `reset` is held and the address is at or above 0x200 (R200);
one that is accepted writes its own byte alone. -/
def Obligations.LoadPortWritesOnlyUnderReset : Prop :=
  ∀ (s : State) (addr : BitVec 12) (data : Byte), s.mem.wf = true →
    ((s.resetHeld = false ∨ addr.toNat < 0x200) → s.load addr data = s) ∧
    (s.resetHeld = true → 0x200 ≤ addr.toNat →
      s.load addr data = { s with mem := (s.load addr data).mem } ∧
      ∀ a, (s.load addr data).readByte a = if a = addr.toNat then data else s.readByte a)

/-- The model's choice (entries 1 to 3): the state named reset is the spec's reset with the default FONT and every draw 0. -/
def Obligations.NamedResetIsTheZeroDraw : Prop :=
  State.reset = State.resetWith defaultFont ResetDraw.zero

/-- The invariant holds after reset, for every FONT and draw, and in the state named reset. -/
def Obligations.ResetMeetsTheInvariant : Prop :=
  (∀ font draw, (State.resetWith font draw).Inv) ∧ State.reset.Inv

/-- Every cycle keeps the invariant: memory canonical, 0 ≤ SP ≤ 16, PC at most 0x10FE, occupied slots at most 0x1000. -/
def Obligations.EveryStepKeepsTheInvariant : Prop :=
  ∀ s t : State, s.Inv → step s = .next t → t.Inv

/-- Every host move keeps the invariant. -/
def Obligations.HostMovesKeepTheInvariant : Prop :=
  ∀ (m : HostMove) (s : State), s.Inv → (hostMove m s).Inv

/-- In every state a session can come to, the invariant holds, and the next cycle answers a next state: the model never stops
and never refuses. -/
def Obligations.EveryReachableStateSteps : Prop :=
  ∀ s : State, Reachable s → s.Inv ∧ ∃ t, step s = .next t

/-- The end of a test run (R210, R101): where the word at PC is a jump to PC, and no tick comes, the cycle changes nothing. -/
def Obligations.JumpToSelfChangesNothing : Prop :=
  ∀ s : State, s.CanFetch → s.endOfRun = true → s.input.tick = false → step s = .next s.consumeInput

/-- Every state that meets the invariant steps, and to a state that meets it: no stop and no refusal. -/
def Obligations.EveryInvariantStateStepsToAnother : Prop :=
  ∀ s : State, s.Inv → ∃ t, step s = .next t ∧ t.Inv

/-! ## Output ports (10_state.md) -/

/-- `waiting_key` (R22, R37): 1 exactly when the core is not faulted and the instruction at PC is LD Vx,K, whatever the level of
`reset` and the inputs are. That it is 0 where PC is above 0xFFE, an address that cannot be fetched (R26, R55), is the model's
choice (entry 16). -/
def Obligations.WaitingKeyShowsTheInstructionAtPc : Prop :=
  ∀ (s : State) (level : Bool) (samples : List Input),
    (State.waitingKey { s with resetHeld := level, inputs := samples } = true ↔
      s.fault = none ∧ s.pc.toNat ≤ 0xFFE ∧ ∃ x, decode s.fetchWord = .ok (.ldVK x))
end

