-- ==== Sys2Proof/Laws/Encoding.lean ====
section
/-! SUPPORT. What each field of a built word is, so that decoding an encoded instruction is a rewrite. -/

namespace Sys2Proof

theorem append_toNat {m n : Nat} (a : BitVec m) (b : BitVec n) : (a ++ b).toNat = a.toNat * 2 ^ n + b.toNat := by
  rw [BitVec.toNat_append, ← Nat.shiftLeft_add_eq_or_of_lt b.isLt, Nat.shiftLeft_eq]

/-! ## A built word as a number -/

theorem regNibble_toNat (r : Reg) : (regNibble r).toNat = r.val := by
  rw [regNibble, BitVec.toNat_ofNat]; exact Nat.mod_eq_of_lt r.isLt

theorem wordA_toNat (op : BitVec 4) (a : Word) : (wordA op a).toNat = op.toNat * 4096 + a.toNat % 4096 := by
  unfold wordA
  rw [show (op ++ a.extractLsb' 0 12 : BitVec (4 + 12)).toNat = _ from append_toNat _ _]
  simp

theorem wordXK_toNat (op : BitVec 4) (x : Reg) (kk : Byte) :
    (wordXK op x kk).toNat = op.toNat * 4096 + x.val * 256 + kk.toNat := by
  unfold wordXK
  rw [show (op ++ regNibble x ++ kk : BitVec (4 + 4 + 8)).toNat = _ from append_toNat _ _, append_toNat,
    regNibble_toNat]
  omega

theorem wordXYN_toNat (op : BitVec 4) (x y : Reg) (n : Nat) :
    (wordXYN op x y n).toNat = op.toNat * 4096 + x.val * 256 + y.val * 16 + n % 16 := by
  unfold wordXYN
  rw [show (op ++ regNibble x ++ regNibble y ++ BitVec.ofNat 4 n : BitVec (4 + 4 + 4 + 4)).toNat = _ from
    append_toNat _ _, append_toNat, append_toNat, regNibble_toNat, regNibble_toNat, BitVec.toNat_ofNat]
  omega

/-! ## A field as a number -/

theorem fieldOp_eq (w : Word) : fieldOp w = w.toNat / 4096 := by
  have := w.isLt
  simp only [fieldOp, BitVec.extractLsb'_toNat, Nat.shiftRight_eq_div_pow]
  omega

theorem fieldX_val (w : Word) : (fieldX w).val = w.toNat / 256 % 16 := by
  simp only [fieldX, BitVec.extractLsb'_toNat, Nat.shiftRight_eq_div_pow]

theorem fieldY_val (w : Word) : (fieldY w).val = w.toNat / 16 % 16 := by
  simp only [fieldY, BitVec.extractLsb'_toNat, Nat.shiftRight_eq_div_pow]

theorem fieldN_eq (w : Word) : fieldN w = w.toNat % 16 := by
  simp only [fieldN, BitVec.extractLsb'_toNat, Nat.shiftRight_zero]

theorem fieldKK_toNat (w : Word) : (fieldKK w).toNat = w.toNat % 256 := by
  simp only [fieldKK, BitVec.extractLsb'_toNat, Nat.shiftRight_zero]

theorem fieldNNN_toNat (w : Word) : (fieldNNN w).toNat = w.toNat % 4096 := by
  simp only [fieldNNN, BitVec.toNat_setWidth, BitVec.extractLsb'_toNat, Nat.shiftRight_eq_div_pow]
  omega

/-! ## The fields of a built word -/

@[simp] theorem fieldOp_wordA (op : BitVec 4) (a : Word) : fieldOp (wordA op a) = op.toNat := by
  rw [fieldOp_eq, wordA_toNat]; omega

@[simp] theorem fieldOp_wordXK (op : BitVec 4) (x : Reg) (k : Byte) : fieldOp (wordXK op x k) = op.toNat := by
  rw [fieldOp_eq, wordXK_toNat]; omega

@[simp] theorem fieldOp_wordXYN (op : BitVec 4) (x y : Reg) (n : Nat) : fieldOp (wordXYN op x y n) = op.toNat := by
  rw [fieldOp_eq, wordXYN_toNat]; omega

@[simp] theorem fieldX_wordXK (op : BitVec 4) (x : Reg) (k : Byte) : fieldX (wordXK op x k) = x := by
  apply Fin.ext; rw [fieldX_val, wordXK_toNat]; omega

@[simp] theorem fieldKK_wordXK (op : BitVec 4) (x : Reg) (k : Byte) : fieldKK (wordXK op x k) = k := by
  apply BitVec.eq_of_toNat_eq; rw [fieldKK_toNat, wordXK_toNat]; omega

@[simp] theorem fieldX_wordXYN (op : BitVec 4) (x y : Reg) (n : Nat) : fieldX (wordXYN op x y n) = x := by
  apply Fin.ext; rw [fieldX_val, wordXYN_toNat]; omega

@[simp] theorem fieldY_wordXYN (op : BitVec 4) (x y : Reg) (n : Nat) : fieldY (wordXYN op x y n) = y := by
  apply Fin.ext; rw [fieldY_val, wordXYN_toNat]; omega

@[simp] theorem fieldN_wordXYN (op : BitVec 4) (x y : Reg) (n : Nat) : fieldN (wordXYN op x y n) = n % 16 := by
  rw [fieldN_eq, wordXYN_toNat]; omega

theorem fieldNNN_wordA (op : BitVec 4) (a : Word) (h : addrFits a = true) : fieldNNN (wordA op a) = a := by
  have : a.toNat ≤ 0xFFF := by simpa [addrFits] using h
  apply BitVec.eq_of_toNat_eq; rw [fieldNNN_toNat, wordA_toNat]; omega

/-! ## The masks of the opcode table, as fields (R75) -/

theorem and_highNibble (n : Nat) (h : n < 65536) : n &&& 0xF000 = n / 4096 * 4096 := by
  have e : n &&& (15 <<< 12) = ((n >>> 12) &&& 15) <<< 12 := by
    apply Nat.eq_of_testBit_eq
    intro i
    rw [Nat.testBit_and, Nat.testBit_shiftLeft, Nat.testBit_shiftLeft, Nat.testBit_and, Nat.testBit_shiftRight]
    by_cases hi : 12 ≤ i
    · simp [hi]
    · simp [hi]
  rw [show (0xF000 : Nat) = 15 <<< 12 from rfl, e, Nat.and_two_pow_sub_one_eq_mod _ 4, Nat.shiftLeft_eq,
    Nat.shiftRight_eq_div_pow]
  omega

theorem and_highNibble_or (n k : Nat) (h : n < 65536) (hk : k ≤ 12) :
    n &&& (0xF000 ||| (2 ^ k - 1)) = n / 4096 * 4096 + n % 2 ^ k := by
  have hlt : n % 2 ^ k < 2 ^ 12 :=
    Nat.lt_of_lt_of_le (Nat.mod_lt _ (Nat.two_pow_pos k)) (Nat.pow_le_pow_right (by omega) hk)
  rw [Nat.and_or_distrib_left, and_highNibble n h, Nat.and_two_pow_sub_one_eq_mod,
    show n / 4096 * 4096 = (n / 4096) <<< 12 from (Nat.shiftLeft_eq (n / 4096) 12).symm,
    Nat.shiftLeft_add_eq_or_of_lt hlt]

/-- A row with mask 0xF000 matches by the major nibble. -/
theorem matches_F000 (w m : Word) (b : Word → Instr) (hm : m.toNat % 4096 = 0) :
    OpcodeRow.matches ⟨0xF000, m, b⟩ w = true ↔ fieldOp w = fieldOp m := by
  have := and_highNibble w.toNat w.isLt
  rw [OpcodeRow.matches, beq_iff_eq, ← BitVec.toNat_inj, BitVec.toNat_and, fieldOp_eq, fieldOp_eq,
    show (0xF000 : Word).toNat = 0xF000 from rfl, this]
  show _ = m.toNat ↔ _
  omega

/-- A row with mask 0xF00F matches by the major nibble and w[3:0]. -/
theorem matches_F00F (w m : Word) (b : Word → Instr) (hm : m.toNat % 4096 < 16) :
    OpcodeRow.matches ⟨0xF00F, m, b⟩ w = true ↔ fieldOp w = fieldOp m ∧ fieldN w = fieldN m := by
  have := and_highNibble_or w.toNat 4 w.isLt (by omega)
  rw [OpcodeRow.matches, beq_iff_eq, ← BitVec.toNat_inj, BitVec.toNat_and, fieldOp_eq, fieldOp_eq, fieldN_eq, fieldN_eq,
    show (0xF00F : Word).toNat = 0xF000 ||| (2 ^ 4 - 1) from rfl, this]
  show _ = m.toNat ↔ _
  omega

/-- A row with mask 0xF0FF matches by the major nibble and w[7:0]. -/
theorem matches_F0FF (w m : Word) (b : Word → Instr) (hm : m.toNat % 4096 < 256) :
    OpcodeRow.matches ⟨0xF0FF, m, b⟩ w = true ↔ fieldOp w = fieldOp m ∧ (fieldKK w).toNat = (fieldKK m).toNat := by
  have := and_highNibble_or w.toNat 8 w.isLt (by omega)
  rw [OpcodeRow.matches, beq_iff_eq, ← BitVec.toNat_inj, BitVec.toNat_and, fieldOp_eq, fieldOp_eq, fieldKK_toNat,
    fieldKK_toNat, show (0xF0FF : Word).toNat = 0xF000 ||| (2 ^ 8 - 1) from rfl, this]
  show _ = m.toNat ↔ _
  omega

/-! ## The fields of any word fit -/

/-- The fields of any decoded instruction fit: addresses are 12 bits wide. -/
theorem addrFits_fieldNNN (w : Word) : addrFits (fieldNNN w) = true := by
  have := fieldNNN_toNat w
  simp only [addrFits, decide_eq_true_eq]
  omega

/-- The fields of any decoded instruction fit: a row count is at most 15. -/
theorem countFits_fieldN (w : Word) : countFits (fieldN w) = true := by
  have := fieldN_eq w
  simp only [countFits, decide_eq_true_eq]
  omega

end Sys2Proof
end

