-- ==== Sys2Proof/Laws/Framebuffer.lean ====
section
/-! SUPPORT. The laws of the framebuffer: what a pixel reads after one is written, and what one plot, one row and a whole sprite
do to every pixel (R162). -/

namespace Sys2Proof.Machine

/-- What a bit of a row reads after one is written. -/
theorem getLsbD_setBit (row : BitVec 64) (x x' : Nat) (b : Bool) (hx : x < 64) :
    (setBit row x b).getLsbD x' = if x' = x then b else row.getLsbD x' := by
  unfold setBit
  by_cases e : x' = x
  · subst e
    cases b <;> simp [hx]
  · by_cases l : x' < 64
    · cases b <;> simp [l, e]
    · have := row.getLsbD_of_ge x' (by omega)
      cases b <;> simp [e, this, BitVec.getLsbD_of_ge _ x' (by omega : 64 ≤ x')]

/-- What a row reads after one is written. -/
theorem FrameBuffer.row_setIfInBounds (fb : FrameBuffer) (y y' : Nat) (r : BitVec 64) (hy : y < 32) :
    FrameBuffer.row (fb.setIfInBounds y r) y' = if y' = y then r else fb.row y' := by
  unfold FrameBuffer.row
  by_cases e : y' = y
  · subst e; simp [hy]
  · simp [e, Ne.symm e]

/-- What a pixel reads after one is written. -/
theorem FrameBuffer.pixel_setPixel (fb : FrameBuffer) (x y x' y' : Nat) (b : Bool) (hx : x < 64) (hy : y < 32) :
    (fb.setPixel x y b).pixel x' y' = if x' = x ∧ y' = y then b else fb.pixel x' y' := by
  unfold FrameBuffer.setPixel FrameBuffer.pixel
  rw [FrameBuffer.row_setIfInBounds fb y y' _ hy]
  by_cases e : y' = y
  · subst e
    rw [if_pos rfl, getLsbD_setBit _ _ _ _ hx]
    simp
  · simp [e]

@[simp] theorem FrameBuffer.pixel_clear (x y : Nat) : FrameBuffer.clear.pixel x y = false := by
  unfold FrameBuffer.pixel FrameBuffer.row FrameBuffer.clear
  by_cases h : y < 32
  · simp [h]
  · simp [Vector.getElem?_eq_none (by omega : 32 ≤ y)]

/-- Two framebuffers with the same pixels are equal. -/
theorem FrameBuffer.ext_pixel (f g : FrameBuffer) (h : ∀ x y, x < 64 → y < 32 → f.pixel x y = g.pixel x y) : f = g := by
  apply Vector.ext
  intro y hy
  apply BitVec.eq_of_getLsbD_eq
  intro x hx
  have := h x y hx hy
  simpa [FrameBuffer.pixel, FrameBuffer.row, hy] using this

/-- What the first k bits of a row do: each pixel they light a sprite bit on flips, and the draw is marked when one was lit. -/
theorem Drawing.plots_spec (x0 py : Nat) (row : Byte) (d : Drawing) (k : Nat) (hk : k ≤ 8) (hy : py < 32) :
    let r := (List.range k).foldl (Drawing.plot x0 py row) d
    (∀ px y, px < 64 → r.fb.pixel px y =
      (d.fb.pixel px y ^^ (decide (y = py) && (List.range k).any fun j => decide ((x0 + j) % 64 = px) && spriteBit row j))) ∧
    r.erased = (d.erased || (List.range k).any fun j => spriteBit row j && d.fb.pixel ((x0 + j) % 64) py) := by
  induction k with
  | zero => simp
  | succ k ih =>
    obtain ⟨ih1, ih2⟩ := ih (by omega)
    have fresh : ((List.range k).any fun j => decide ((x0 + j) % 64 = (x0 + k) % 64) && spriteBit row j) = false := by
      simp only [List.any_eq_false, List.mem_range, Bool.and_eq_true, decide_eq_true_eq, not_and]
      intro j hj e
      omega
    have old := ih1 ((x0 + k) % 64) py (Nat.mod_lt _ (by omega))
    simp only [fresh, Bool.and_false, Bool.xor_false] at old
    simp only [List.range_succ, List.foldl_append, List.foldl_cons, List.foldl_nil, List.any_append, List.any_cons,
      List.any_nil, Bool.or_false]
    constructor
    · intro px y hx
      rw [Drawing.plot, FrameBuffer.pixel_setPixel _ _ _ _ _ _ (Nat.mod_lt _ (by omega)) hy, old]
      by_cases e : px = (x0 + k) % 64 ∧ y = py
      · obtain ⟨rfl, rfl⟩ := e
        simp [fresh]
      · rw [if_neg e, ih1 px y hx]
        by_cases e2 : y = py
        · have : ¬ (x0 + k) % 64 = px := fun q => e ⟨q.symm, e2⟩
          simp [this]
        · simp [e2]
    · rw [Drawing.plot, ih2, old, Bool.or_assoc]

/-- A sprite bit of 1 falls on (px, py) from a row at number `i` or later (R162): row i + r on row (y0 + i + r) mod 32, bit j on
column (x0 + j) mod 64. -/
def spriteLights (x0 y0 i : Nat) (rows : List Byte) (px py : Nat) : Bool :=
  (List.range rows.length).any fun r =>
    decide (py = (y0 + (i + r)) % 32) &&
      (List.range 8).any fun j => decide ((x0 + j) % 64 = px) && spriteBit (rows.getD r 0) j

theorem spriteLights_cons (x0 y0 i : Nat) (row : Byte) (rows : List Byte) (px py : Nat) :
    spriteLights x0 y0 i (row :: rows) px py =
      ((decide (py = (y0 + i) % 32) &&
        (List.range 8).any fun j => decide ((x0 + j) % 64 = px) && spriteBit row j) ||
      spriteLights x0 y0 (i + 1) rows px py) := by
  have (r : Nat) : i + (r + 1) = i + 1 + r := by omega
  rw [spriteLights, List.length_cons,
    show List.range (rows.length + 1) = 0 :: (List.range rows.length).map Nat.succ from List.range_succ_eq_map,
    List.any_cons, List.any_map]
  congr 1
  unfold spriteLights
  congr 1
  funext r
  simp only [Function.comp_apply, List.getD_cons_succ]
  rw [← this r]

theorem spriteLights_fresh (x0 y0 i : Nat) (rows : List Byte) (px : Nat) (h : rows.length < 32) :
    spriteLights x0 y0 (i + 1) rows px ((y0 + i) % 32) = false := by
  simp only [spriteLights, List.any_eq_false, List.mem_range, Bool.and_eq_true, decide_eq_true_eq, not_and]
  intro r hr e
  omega

/-- What a sprite of fewer than 33 rows does: exactly the pixels it lights a bit on flip (no pixel is touched twice, R163), and the
draw is marked exactly when one of those was lit. -/
theorem Drawing.rows_spec (x0 y0 : Nat) (rows : List Byte) (i : Nat) (d : Drawing) (h : rows.length ≤ 32) :
    (∀ px y, px < 64 → (Drawing.rows x0 y0 i rows d).fb.pixel px y = (d.fb.pixel px y ^^ spriteLights x0 y0 i rows px y)) ∧
    ((Drawing.rows x0 y0 i rows d).erased = true ↔
      d.erased = true ∨ ∃ px y, px < 64 ∧ spriteLights x0 y0 i rows px y = true ∧ d.fb.pixel px y = true) := by
  induction rows generalizing i d with
  | nil => simp [Drawing.rows, spriteLights]
  | cons row rows ih =>
    simp only [List.length_cons] at h
    obtain ⟨p1, p2⟩ := Drawing.plots_spec x0 ((y0 + i) % 32) row d 8 (Nat.le_refl 8) (Nat.mod_lt _ (by omega))
    obtain ⟨q1, q2⟩ := ih (i + 1) (d.row x0 ((y0 + i) % 32) row) (by omega)
    rw [Drawing.rows]
    constructor
    · intro px y hx
      rw [q1 px y hx, Drawing.row, p1 px y hx, spriteLights_cons]
      by_cases e : y = (y0 + i) % 32
      · subst e
        rw [spriteLights_fresh x0 y0 i rows px (by omega)]
        simp
      · simp [e]
    · rw [q2, Drawing.row, p2]
      constructor
      · rintro (hd | ⟨px, y, hx, hs, hp⟩)
        · rw [Bool.or_eq_true] at hd
          rcases hd with hd | hd
          · exact .inl hd
          · rw [List.any_eq_true] at hd
            obtain ⟨j, hj, hb⟩ := hd
            rw [Bool.and_eq_true] at hb
            refine .inr ⟨(x0 + j) % 64, (y0 + i) % 32, Nat.mod_lt _ (by omega), ?_, hb.2⟩
            rw [spriteLights_cons, Bool.or_eq_true, Bool.and_eq_true]
            exact .inl ⟨by simp, List.any_eq_true.mpr ⟨j, hj, by simp [hb.1]⟩⟩
        · refine .inr ⟨px, y, hx, by rw [spriteLights_cons, hs, Bool.or_true], ?_⟩
          rw [p1 px y hx] at hp
          by_cases e : y = (y0 + i) % 32
          · subst e
            rw [spriteLights_fresh x0 y0 i rows px (by omega)] at hs
            exact absurd hs (by simp)
          · simpa [e] using hp
      · rintro (hd | ⟨px, y, hx, hs, hp⟩)
        · exact .inl (by simp [hd])
        · rw [spriteLights_cons, Bool.or_eq_true, Bool.and_eq_true, decide_eq_true_eq] at hs
          rcases hs with ⟨rfl, hs⟩ | hs
          · left
            rw [List.any_eq_true] at hs
            obtain ⟨j, hj, hb⟩ := hs
            rw [Bool.and_eq_true, decide_eq_true_eq] at hb
            rw [Bool.or_eq_true]
            exact .inr (List.any_eq_true.mpr ⟨j, hj, by rw [hb.1, hb.2, hp]; rfl⟩)
          · refine .inr ⟨px, y, hx, hs, ?_⟩
            rw [p1 px y hx]
            by_cases e : y = (y0 + i) % 32
            · subst e
              rw [spriteLights_fresh x0 y0 i rows px (by omega)] at hs
              exact absurd hs (by simp)
            · simp [e, hp]

end Sys2Proof.Machine
end

