-- ==== Sys2Proof/Laws/Memory.lean ====
section
/-! SUPPORT. The laws of memory: read after write, and that every memory operation keeps the canonical form; and what the
address checks of R56 and R57 find. -/

namespace Sys2Proof.Machine

/-! ## Read after write -/

theorem Memory.read_consCell (m : Memory) (a a' : Nat) (b : Byte) (h : m.read a = Memory.unlisted a) :
    (Memory.consCell a b m).read a' = if a' = a then b else m.read a' := by
  unfold Memory.consCell
  by_cases e : a' = a
  · subst e
    split
    · simp_all
    · simp [Memory.read]
  · have : a ≠ a' := fun q => e q.symm
    rw [if_neg e]
    split <;> simp [Memory.read, this]

/-- Below the first entry every address reads as unlisted. -/
theorem Memory.read_below (m : Memory) (lo a : Nat) (h : m.wfFrom lo = true) (ha : a < lo) :
    m.read a = Memory.unlisted a := by
  induction m generalizing lo with
  | nil => rfl
  | cons cell m ih =>
    obtain ⟨k, c⟩ := cell
    simp only [Memory.wfFrom, Bool.and_eq_true, decide_eq_true_eq] at h
    rw [Memory.read, if_neg (by omega)]
    exact ih (k + 1) h.2 (by omega)

/-- What a byte reads as after one byte is written: the byte written there, and every other byte as before. -/
theorem Memory.read_write (m : Memory) (lo a a' : Nat) (b : Byte) (h : m.wfFrom lo = true) :
    (m.write a b).read a' = if a' = a then b else m.read a' := by
  induction m generalizing lo with
  | nil => exact Memory.read_consCell [] a a' b rfl
  | cons cell m ih =>
    obtain ⟨k, c⟩ := cell
    simp only [Memory.wfFrom, Bool.and_eq_true, decide_eq_true_eq] at h
    rw [Memory.write]
    split
    · rename_i hlt
      refine Memory.read_consCell _ a a' b ?_
      rw [Memory.read, if_neg (by omega)]
      exact Memory.read_below m (k + 1) a h.2 (by omega)
    · split
      · rename_i hk
        subst hk
        rw [Memory.read_consCell m a a' b (Memory.read_below m (a + 1) a h.2 (by omega)), Memory.read]
        by_cases e : a' = a
        · simp [e]
        · have : a ≠ a' := fun q => e q.symm
          simp [e, this]
      · rename_i hne
        rw [Memory.read, Memory.read, ih (k + 1) h.2]
        by_cases e : k = a'
        · subst e
          rw [if_pos rfl, if_pos rfl, if_neg (by omega)]
        · simp [e]

/-! ## The canonical form is kept -/

theorem Memory.wfFrom_mono (m : Memory) (lo lo' : Nat) (h : m.wfFrom lo = true) (hl : lo' ≤ lo) :
    m.wfFrom lo' = true := by
  cases m with
  | nil => rfl
  | cons cell m =>
    simp only [Memory.wfFrom, Bool.and_eq_true, decide_eq_true_eq] at h ⊢
    exact ⟨⟨⟨by omega, h.1.1.2⟩, h.1.2⟩, h.2⟩

theorem Memory.wfFrom_consCell (m : Memory) (lo a : Nat) (b : Byte) (h : m.wfFrom (a + 1) = true) (hl : lo ≤ a)
    (ha : a < 0x1000) : (Memory.consCell a b m).wfFrom lo = true := by
  unfold Memory.consCell
  split
  · exact Memory.wfFrom_mono m (a + 1) lo h (by omega)
  · simp_all [Memory.wfFrom]

theorem Memory.wfFrom_write (m : Memory) (lo a : Nat) (b : Byte) (h : m.wfFrom lo = true) (hl : lo ≤ a)
    (ha : a < 0x1000) : (m.write a b).wfFrom lo = true := by
  induction m generalizing lo with
  | nil => exact Memory.wfFrom_consCell [] lo a b rfl hl ha
  | cons cell m ih =>
    obtain ⟨k, c⟩ := cell
    have h0 := h
    simp only [Memory.wfFrom, Bool.and_eq_true, decide_eq_true_eq] at h
    rw [Memory.write]
    split
    · refine Memory.wfFrom_consCell _ lo a b ?_ hl ha
      simp only [Memory.wfFrom, Bool.and_eq_true, decide_eq_true_eq]
      exact ⟨⟨⟨by omega, h.1.1.2⟩, h.1.2⟩, h.2⟩
    · split
      · rename_i hk
        subst hk
        exact Memory.wfFrom_consCell m lo a b h.2 hl ha
      · simp only [Memory.wfFrom, Bool.and_eq_true, decide_eq_true_eq]
        exact ⟨h.1, ih (k + 1) h.2 (by omega)⟩

/-- Writing one byte of the 4096 keeps the canonical form. -/
theorem Memory.wf_write (m : Memory) (a : Nat) (b : Byte) (h : m.wf = true) (ha : a < 0x1000) :
    (m.write a b).wf = true :=
  Memory.wfFrom_write m 0 a b h (Nat.zero_le a) ha

/-- Writing bytes inside the 4096 keeps the canonical form. -/
theorem Memory.wf_writeList (bs : List Byte) (m : Memory) (base : Nat) (h : m.wf = true)
    (hb : base + bs.length ≤ 0x1000) : (m.writeList base bs).wf = true := by
  induction bs generalizing m base with
  | nil => exact h
  | cons b bs ih =>
    simp only [List.length_cons] at hb
    exact ih (m.write base b) (base + 1) (Memory.wf_write m base b h (by omega)) (by omega)

/-- What a byte reads as after a list is written: the list's byte inside it, and as before outside. -/
theorem Memory.read_writeList (bs : List Byte) (m : Memory) (base a : Nat) (h : m.wf = true)
    (hb : base + bs.length ≤ 0x1000) :
    (m.writeList base bs).read a = if base ≤ a then (bs[a - base]?).getD (m.read a) else m.read a := by
  induction bs generalizing m base with
  | nil => simp [Memory.writeList]
  | cons b bs ih =>
    simp only [List.length_cons] at hb
    rw [Memory.writeList, ih (m.write base b) (base + 1) (Memory.wf_write m base b h (by omega)) (by omega),
      Memory.read_write m 0 base a b h]
    by_cases e : a = base
    · subst e; simp
    · by_cases l : base ≤ a
      · obtain ⟨d, rfl⟩ : ∃ d, a = base + 1 + d := ⟨a - (base + 1), by omega⟩
        rw [if_pos (by omega), if_pos l, if_neg e, show base + 1 + d - (base + 1) = d by omega,
          show base + 1 + d - base = d + 1 by omega, List.getElem?_cons_succ]
      · have : ¬ base + 1 ≤ a := by omega
        simp [e, l, this]

/-! ## The address checks (R56, R57) -/

theorem find_from_gt (base n t : Nat) :
    ((List.range n).map (base + ·)).find? (fun a => decide (t < a)) =
      if t < base + (n - 1) ∧ 0 < n then some (max base (t + 1)) else none := by
  induction n with
  | zero => simp
  | succ n ih =>
    rw [List.range_succ, List.map_append, List.find?_append, ih]
    by_cases h : t < base + (n - 1) ∧ 0 < n
    · have : t < base + (n + 1 - 1) ∧ 0 < n + 1 := by omega
      simp [h]
      omega
    · by_cases h2 : t < base + n
      · have : max base (t + 1) = base + n := by omega
        simp [h, h2, this]
      · simp [h, h2]

/-- The check of R56 finds max(I, 0x1000) when some offset of 0..n-1 reaches above 0xFFF, and nothing otherwise. -/
theorem State.outOfMemory_eq (s : State) (n : Nat) :
    s.outOfMemory n = if 0xFFF < s.i.toNat + (n - 1) ∧ 0 < n then some (max s.i.toNat 0x1000) else none :=
  find_from_gt s.i.toNat n 0xFFF

/-- The check of R57 finds I when I lies below 0x050, and nothing otherwise. -/
theorem State.inFont_eq (s : State) (n : Nat) (h : 0 < n) :
    s.inFont n = if s.i.toNat < 0x050 then some s.i.toNat else none := by
  obtain ⟨k, rfl⟩ : ∃ k, n = k + 1 := ⟨n - 1, by omega⟩
  unfold State.inFont State.accessSet
  by_cases e : s.i.toNat < 0x050
  · rw [List.range_succ_eq_map, List.map_cons, List.find?_cons]
    simp [State.ea, e]
  · rw [if_neg e, List.find?_eq_none]
    simp only [List.mem_map, State.ea]
    rintro a ⟨r, _, rfl⟩
    simp only [decide_eq_true_eq]
    omega

/-- What the check of reads can do: continue when every address lies in memory, or raise DataBounds. -/
theorem State.ifReadable_cases (s : State) (ins : Instr) (n : Nat) (k : State) :
    ((n = 0 ∨ s.i.toNat + n ≤ 0x1000) ∧ s.ifReadable ins n k = k) ∨
    (0 < n ∧ 0x1000 < s.i.toNat + n ∧
      s.ifReadable ins n k =
        s.raise .dataBounds (some (encode ins)) (some (BitVec.ofNat 16 (max s.i.toNat 0x1000)))) := by
  unfold State.ifReadable
  rw [State.outOfMemory_eq]
  by_cases h : 0xFFF < s.i.toNat + (n - 1) ∧ 0 < n
  · exact .inr ⟨h.2, by omega, by simp [h]⟩
  · exact .inl ⟨by omega, by simp only [h, if_false]⟩

/-- What the checks of writes can do: continue, raise DataBounds, or raise ProtectedWrite. -/
theorem State.ifWritable_cases (s : State) (ins : Instr) (n : Nat) (k : State) (h : 0 < n) :
    (0x050 ≤ s.i.toNat ∧ s.i.toNat + n ≤ 0x1000 ∧ s.ifWritable ins n k = k) ∨
    (0x1000 < s.i.toNat + n ∧
      s.ifWritable ins n k =
        s.raise .dataBounds (some (encode ins)) (some (BitVec.ofNat 16 (max s.i.toNat 0x1000)))) ∨
    (s.i.toNat < 0x050 ∧ s.i.toNat + n ≤ 0x1000 ∧
      s.ifWritable ins n k = s.raise .protectedWrite (some (encode ins)) (some s.i)) := by
  unfold State.ifWritable
  rcases State.ifReadable_cases s ins n (s.ifOutsideFont ins n k) with ⟨hb, e⟩ | ⟨_, hb, e⟩
  · rw [e, State.ifOutsideFont, State.inFont_eq s n h]
    by_cases f : s.i.toNat < 0x050
    · exact .inr (.inr ⟨f, by omega, by simp [f]⟩)
    · exact .inl ⟨by omega, by omega, by simp only [f, if_false]⟩
  · exact .inr (.inl ⟨hb, e⟩)

/-- Memory at reset is canonical: nothing is listed. -/
theorem State.reset_mem_wf : State.reset.mem.wf = true := rfl

end Sys2Proof.Machine
end

