-- ==== Sys2Proof/Laws/PerInstr.lean ====
section
/-! SUPPORT. Laws over all instructions, one lemma per constructor. EncodeRow: the encoding of an instruction lies in a row of the
opcode table (R75), so that the encoder leaves no fixed bit of a row wrong. -/

namespace Sys2Proof.Laws.EncodeRow

/-- Some row of the opcode table matches the encoding of the instruction. -/
def Statement (i : Instr) : Prop := ∃ r ∈ opcodeRows, r.matches (encode i) = true

theorem of_exact (i : Instr) (r : OpcodeRow) (h : r ∈ exactRows) (m : r.matches (encode i) = true) : Statement i :=
  ⟨r, by simp [opcodeRows, h], m⟩

theorem of_minorByte (i : Instr) (r : OpcodeRow) (h : r ∈ minorByteRows) (m : r.matches (encode i) = true) : Statement i :=
  ⟨r, by simp [opcodeRows, h], m⟩

theorem of_minorNibble (i : Instr) (r : OpcodeRow) (h : r ∈ minorNibbleRows) (m : r.matches (encode i) = true) :
    Statement i :=
  ⟨r, by simp [opcodeRows, h], m⟩

theorem of_major (i : Instr) (r : OpcodeRow) (h : r ∈ majorRows) (m : r.matches (encode i) = true) : Statement i :=
  ⟨r, by simp [opcodeRows, h], m⟩

theorem cls : Statement .cls := of_exact _ (exactRows[0]) (List.getElem_mem _) (by decide)

theorem ret : Statement .ret := of_exact _ (exactRows[1]) (List.getElem_mem _) (by decide)

theorem jp (addr : Word) : Statement (.jp addr) :=
  of_major _ (majorRows[0]) (List.getElem_mem _) ((matches_F000 _ _ _ (by decide)).mpr (by simp [encode]; decide))

theorem call (addr : Word) : Statement (.call addr) :=
  of_major _ (majorRows[1]) (List.getElem_mem _) ((matches_F000 _ _ _ (by decide)).mpr (by simp [encode]; decide))

theorem seK (x : Reg) (kk : Byte) : Statement (.seK x kk) :=
  of_major _ (majorRows[2]) (List.getElem_mem _) ((matches_F000 _ _ _ (by decide)).mpr (by simp [encode]; decide))

theorem sneK (x : Reg) (kk : Byte) : Statement (.sneK x kk) :=
  of_major _ (majorRows[3]) (List.getElem_mem _) ((matches_F000 _ _ _ (by decide)).mpr (by simp [encode]; decide))

theorem seV (x y : Reg) : Statement (.seV x y) :=
  of_minorNibble _ (minorNibbleRows[0]) (List.getElem_mem _) ((matches_F00F _ _ _ (by decide)).mpr (by simp [encode]; decide))

theorem ldK (x : Reg) (kk : Byte) : Statement (.ldK x kk) :=
  of_major _ (majorRows[4]) (List.getElem_mem _) ((matches_F000 _ _ _ (by decide)).mpr (by simp [encode]; decide))

theorem addK (x : Reg) (kk : Byte) : Statement (.addK x kk) :=
  of_major _ (majorRows[5]) (List.getElem_mem _) ((matches_F000 _ _ _ (by decide)).mpr (by simp [encode]; decide))

theorem ldV (x y : Reg) : Statement (.ldV x y) :=
  of_minorNibble _ (minorNibbleRows[2]) (List.getElem_mem _) ((matches_F00F _ _ _ (by decide)).mpr (by simp [encode]; decide))

theorem orV (x y : Reg) : Statement (.orV x y) :=
  of_minorNibble _ (minorNibbleRows[3]) (List.getElem_mem _) ((matches_F00F _ _ _ (by decide)).mpr (by simp [encode]; decide))

theorem andV (x y : Reg) : Statement (.andV x y) :=
  of_minorNibble _ (minorNibbleRows[4]) (List.getElem_mem _) ((matches_F00F _ _ _ (by decide)).mpr (by simp [encode]; decide))

theorem xorV (x y : Reg) : Statement (.xorV x y) :=
  of_minorNibble _ (minorNibbleRows[5]) (List.getElem_mem _) ((matches_F00F _ _ _ (by decide)).mpr (by simp [encode]; decide))

theorem addV (x y : Reg) : Statement (.addV x y) :=
  of_minorNibble _ (minorNibbleRows[6]) (List.getElem_mem _) ((matches_F00F _ _ _ (by decide)).mpr (by simp [encode]; decide))

theorem subV (x y : Reg) : Statement (.subV x y) :=
  of_minorNibble _ (minorNibbleRows[7]) (List.getElem_mem _) ((matches_F00F _ _ _ (by decide)).mpr (by simp [encode]; decide))

theorem shr (x : Reg) : Statement (.shr x) :=
  of_minorNibble _ (minorNibbleRows[8]) (List.getElem_mem _) ((matches_F00F _ _ _ (by decide)).mpr (by simp [encode]; decide))

theorem subnV (x y : Reg) : Statement (.subnV x y) :=
  of_minorNibble _ (minorNibbleRows[9]) (List.getElem_mem _) ((matches_F00F _ _ _ (by decide)).mpr (by simp [encode]; decide))

theorem shl (x : Reg) : Statement (.shl x) :=
  of_minorNibble _ (minorNibbleRows[10]) (List.getElem_mem _) ((matches_F00F _ _ _ (by decide)).mpr (by simp [encode]; decide))

theorem sneV (x y : Reg) : Statement (.sneV x y) :=
  of_minorNibble _ (minorNibbleRows[1]) (List.getElem_mem _) ((matches_F00F _ _ _ (by decide)).mpr (by simp [encode]; decide))

theorem ldI (addr : Word) : Statement (.ldI addr) :=
  of_major _ (majorRows[6]) (List.getElem_mem _) ((matches_F000 _ _ _ (by decide)).mpr (by simp [encode]; decide))

theorem jpV0 (addr : Word) : Statement (.jpV0 addr) :=
  of_major _ (majorRows[7]) (List.getElem_mem _) ((matches_F000 _ _ _ (by decide)).mpr (by simp [encode]; decide))

theorem rnd (x : Reg) (kk : Byte) : Statement (.rnd x kk) :=
  of_major _ (majorRows[8]) (List.getElem_mem _) ((matches_F000 _ _ _ (by decide)).mpr (by simp [encode]; decide))

theorem drw (x y : Reg) (n : Nat) : Statement (.drw x y n) :=
  of_major _ (majorRows[9]) (List.getElem_mem _) ((matches_F000 _ _ _ (by decide)).mpr (by simp [encode]; decide))

theorem skp (x : Reg) : Statement (.skp x) :=
  of_minorByte _ (minorByteRows[0]) (List.getElem_mem _) ((matches_F0FF _ _ _ (by decide)).mpr (by simp [encode]; decide))

theorem sknp (x : Reg) : Statement (.sknp x) :=
  of_minorByte _ (minorByteRows[1]) (List.getElem_mem _) ((matches_F0FF _ _ _ (by decide)).mpr (by simp [encode]; decide))

theorem ldVDT (x : Reg) : Statement (.ldVDT x) :=
  of_minorByte _ (minorByteRows[2]) (List.getElem_mem _) ((matches_F0FF _ _ _ (by decide)).mpr (by simp [encode]; decide))

theorem ldVK (x : Reg) : Statement (.ldVK x) :=
  of_minorByte _ (minorByteRows[3]) (List.getElem_mem _) ((matches_F0FF _ _ _ (by decide)).mpr (by simp [encode]; decide))

theorem ldDTV (x : Reg) : Statement (.ldDTV x) :=
  of_minorByte _ (minorByteRows[4]) (List.getElem_mem _) ((matches_F0FF _ _ _ (by decide)).mpr (by simp [encode]; decide))

theorem ldSTV (x : Reg) : Statement (.ldSTV x) :=
  of_minorByte _ (minorByteRows[5]) (List.getElem_mem _) ((matches_F0FF _ _ _ (by decide)).mpr (by simp [encode]; decide))

theorem addI (x : Reg) : Statement (.addI x) :=
  of_minorByte _ (minorByteRows[6]) (List.getElem_mem _) ((matches_F0FF _ _ _ (by decide)).mpr (by simp [encode]; decide))

theorem ldF (x : Reg) : Statement (.ldF x) :=
  of_minorByte _ (minorByteRows[7]) (List.getElem_mem _) ((matches_F0FF _ _ _ (by decide)).mpr (by simp [encode]; decide))

theorem ldB (x : Reg) : Statement (.ldB x) :=
  of_minorByte _ (minorByteRows[8]) (List.getElem_mem _) ((matches_F0FF _ _ _ (by decide)).mpr (by simp [encode]; decide))

theorem ldMI (x : Reg) : Statement (.ldMI x) :=
  of_minorByte _ (minorByteRows[9]) (List.getElem_mem _) ((matches_F0FF _ _ _ (by decide)).mpr (by simp [encode]; decide))

theorem ldVMI (x : Reg) : Statement (.ldVMI x) :=
  of_minorByte _ (minorByteRows[10]) (List.getElem_mem _) ((matches_F0FF _ _ _ (by decide)).mpr (by simp [encode]; decide))

end Sys2Proof.Laws.EncodeRow
end

