-- ==== Sys2Proof/Laws/State.lean ====
section
/-! SUPPORT. One lemma per field per update of the state, so that no later proof unfolds a record update. -/

namespace Sys2Proof.Machine

/-! ## setReg -/

@[simp] theorem State.setReg_mem (s : State) (x : Reg) (b : Byte) : (s.setReg x b).mem = s.mem := rfl
@[simp] theorem State.setReg_v (s : State) (x : Reg) (b : Byte) : (s.setReg x b).v = s.v.set x.val b x.isLt := rfl
@[simp] theorem State.setReg_i (s : State) (x : Reg) (b : Byte) : (s.setReg x b).i = s.i := rfl
@[simp] theorem State.setReg_pc (s : State) (x : Reg) (b : Byte) : (s.setReg x b).pc = s.pc := rfl
@[simp] theorem State.setReg_stack (s : State) (x : Reg) (b : Byte) : (s.setReg x b).stack = s.stack := rfl
@[simp] theorem State.setReg_sp (s : State) (x : Reg) (b : Byte) : (s.setReg x b).sp = s.sp := rfl
@[simp] theorem State.setReg_dt (s : State) (x : Reg) (b : Byte) : (s.setReg x b).dt = s.dt := rfl
@[simp] theorem State.setReg_st (s : State) (x : Reg) (b : Byte) : (s.setReg x b).st = s.st := rfl
@[simp] theorem State.setReg_fb (s : State) (x : Reg) (b : Byte) : (s.setReg x b).fb = s.fb := rfl
@[simp] theorem State.setReg_dirty (s : State) (x : Reg) (b : Byte) : (s.setReg x b).dirty = s.dirty := rfl
@[simp] theorem State.setReg_fault (s : State) (x : Reg) (b : Byte) : (s.setReg x b).fault = s.fault := rfl
@[simp] theorem State.setReg_resetHeld (s : State) (x : Reg) (b : Byte) : (s.setReg x b).resetHeld = s.resetHeld := rfl
@[simp] theorem State.setReg_inputs (s : State) (x : Reg) (b : Byte) : (s.setReg x b).inputs = s.inputs := rfl
@[simp] theorem State.setReg_cycle (s : State) (x : Reg) (b : Byte) : (s.setReg x b).cycle = s.cycle := rfl

/-! ## setVF -/

@[simp] theorem State.setVF_mem (s : State) (f : Byte) : (s.setVF f).mem = s.mem := rfl
@[simp] theorem State.setVF_v (s : State) (f : Byte) : (s.setVF f).v = s.v.set (VF : Reg).val f (VF : Reg).isLt := rfl
@[simp] theorem State.setVF_i (s : State) (f : Byte) : (s.setVF f).i = s.i := rfl
@[simp] theorem State.setVF_pc (s : State) (f : Byte) : (s.setVF f).pc = s.pc := rfl
@[simp] theorem State.setVF_stack (s : State) (f : Byte) : (s.setVF f).stack = s.stack := rfl
@[simp] theorem State.setVF_sp (s : State) (f : Byte) : (s.setVF f).sp = s.sp := rfl
@[simp] theorem State.setVF_dt (s : State) (f : Byte) : (s.setVF f).dt = s.dt := rfl
@[simp] theorem State.setVF_st (s : State) (f : Byte) : (s.setVF f).st = s.st := rfl
@[simp] theorem State.setVF_fb (s : State) (f : Byte) : (s.setVF f).fb = s.fb := rfl
@[simp] theorem State.setVF_dirty (s : State) (f : Byte) : (s.setVF f).dirty = s.dirty := rfl
@[simp] theorem State.setVF_fault (s : State) (f : Byte) : (s.setVF f).fault = s.fault := rfl
@[simp] theorem State.setVF_resetHeld (s : State) (f : Byte) : (s.setVF f).resetHeld = s.resetHeld := rfl
@[simp] theorem State.setVF_inputs (s : State) (f : Byte) : (s.setVF f).inputs = s.inputs := rfl
@[simp] theorem State.setVF_cycle (s : State) (f : Byte) : (s.setVF f).cycle = s.cycle := rfl

/-! ## advance -/

@[simp] theorem State.advance_mem (s : State) : (s.advance).mem = s.mem := rfl
@[simp] theorem State.advance_v (s : State) : (s.advance).v = s.v := rfl
@[simp] theorem State.advance_i (s : State) : (s.advance).i = s.i := rfl
@[simp] theorem State.advance_pc (s : State) : (s.advance).pc = s.pc + 2 := rfl
@[simp] theorem State.advance_stack (s : State) : (s.advance).stack = s.stack := rfl
@[simp] theorem State.advance_sp (s : State) : (s.advance).sp = s.sp := rfl
@[simp] theorem State.advance_dt (s : State) : (s.advance).dt = s.dt := rfl
@[simp] theorem State.advance_st (s : State) : (s.advance).st = s.st := rfl
@[simp] theorem State.advance_fb (s : State) : (s.advance).fb = s.fb := rfl
@[simp] theorem State.advance_dirty (s : State) : (s.advance).dirty = s.dirty := rfl
@[simp] theorem State.advance_fault (s : State) : (s.advance).fault = s.fault := rfl
@[simp] theorem State.advance_resetHeld (s : State) : (s.advance).resetHeld = s.resetHeld := rfl
@[simp] theorem State.advance_inputs (s : State) : (s.advance).inputs = s.inputs := rfl
@[simp] theorem State.advance_cycle (s : State) : (s.advance).cycle = s.cycle := rfl

/-! ## skipIf -/

@[simp] theorem State.skipIf_mem (s : State) (c : Bool) : (s.skipIf c).mem = s.mem := rfl
@[simp] theorem State.skipIf_v (s : State) (c : Bool) : (s.skipIf c).v = s.v := rfl
@[simp] theorem State.skipIf_i (s : State) (c : Bool) : (s.skipIf c).i = s.i := rfl
@[simp] theorem State.skipIf_pc (s : State) (c : Bool) : (s.skipIf c).pc = s.pc + if c then 4 else 2 := rfl
@[simp] theorem State.skipIf_stack (s : State) (c : Bool) : (s.skipIf c).stack = s.stack := rfl
@[simp] theorem State.skipIf_sp (s : State) (c : Bool) : (s.skipIf c).sp = s.sp := rfl
@[simp] theorem State.skipIf_dt (s : State) (c : Bool) : (s.skipIf c).dt = s.dt := rfl
@[simp] theorem State.skipIf_st (s : State) (c : Bool) : (s.skipIf c).st = s.st := rfl
@[simp] theorem State.skipIf_fb (s : State) (c : Bool) : (s.skipIf c).fb = s.fb := rfl
@[simp] theorem State.skipIf_dirty (s : State) (c : Bool) : (s.skipIf c).dirty = s.dirty := rfl
@[simp] theorem State.skipIf_fault (s : State) (c : Bool) : (s.skipIf c).fault = s.fault := rfl
@[simp] theorem State.skipIf_resetHeld (s : State) (c : Bool) : (s.skipIf c).resetHeld = s.resetHeld := rfl
@[simp] theorem State.skipIf_inputs (s : State) (c : Bool) : (s.skipIf c).inputs = s.inputs := rfl
@[simp] theorem State.skipIf_cycle (s : State) (c : Bool) : (s.skipIf c).cycle = s.cycle := rfl

/-! ## raise -/

@[simp] theorem State.raise_mem (s : State) (k : FaultKind) (w a : Option Word) : (s.raise k w a).mem = s.mem := rfl
@[simp] theorem State.raise_v (s : State) (k : FaultKind) (w a : Option Word) : (s.raise k w a).v = s.v := rfl
@[simp] theorem State.raise_i (s : State) (k : FaultKind) (w a : Option Word) : (s.raise k w a).i = s.i := rfl
@[simp] theorem State.raise_pc (s : State) (k : FaultKind) (w a : Option Word) : (s.raise k w a).pc = s.pc := rfl
@[simp] theorem State.raise_stack (s : State) (k : FaultKind) (w a : Option Word) : (s.raise k w a).stack = s.stack := rfl
@[simp] theorem State.raise_sp (s : State) (k : FaultKind) (w a : Option Word) : (s.raise k w a).sp = s.sp := rfl
@[simp] theorem State.raise_dt (s : State) (k : FaultKind) (w a : Option Word) : (s.raise k w a).dt = s.dt := rfl
@[simp] theorem State.raise_st (s : State) (k : FaultKind) (w a : Option Word) : (s.raise k w a).st = s.st := rfl
@[simp] theorem State.raise_fb (s : State) (k : FaultKind) (w a : Option Word) : (s.raise k w a).fb = s.fb := rfl
@[simp] theorem State.raise_dirty (s : State) (k : FaultKind) (w a : Option Word) : (s.raise k w a).dirty = s.dirty := rfl
@[simp] theorem State.raise_fault (s : State) (k : FaultKind) (w a : Option Word) : (s.raise k w a).fault = some { kind := k, pc := s.pc, word := w, addr := a } := rfl
@[simp] theorem State.raise_resetHeld (s : State) (k : FaultKind) (w a : Option Word) : (s.raise k w a).resetHeld = s.resetHeld := rfl
@[simp] theorem State.raise_inputs (s : State) (k : FaultKind) (w a : Option Word) : (s.raise k w a).inputs = s.inputs := rfl
@[simp] theorem State.raise_cycle (s : State) (k : FaultKind) (w a : Option Word) : (s.raise k w a).cycle = s.cycle := rfl

/-! ## writeBytes -/

@[simp] theorem State.writeBytes_mem (s : State) (a : Nat) (bs : List Byte) : (s.writeBytes a bs).mem = s.mem.writeList a bs := rfl
@[simp] theorem State.writeBytes_v (s : State) (a : Nat) (bs : List Byte) : (s.writeBytes a bs).v = s.v := rfl
@[simp] theorem State.writeBytes_i (s : State) (a : Nat) (bs : List Byte) : (s.writeBytes a bs).i = s.i := rfl
@[simp] theorem State.writeBytes_pc (s : State) (a : Nat) (bs : List Byte) : (s.writeBytes a bs).pc = s.pc := rfl
@[simp] theorem State.writeBytes_stack (s : State) (a : Nat) (bs : List Byte) : (s.writeBytes a bs).stack = s.stack := rfl
@[simp] theorem State.writeBytes_sp (s : State) (a : Nat) (bs : List Byte) : (s.writeBytes a bs).sp = s.sp := rfl
@[simp] theorem State.writeBytes_dt (s : State) (a : Nat) (bs : List Byte) : (s.writeBytes a bs).dt = s.dt := rfl
@[simp] theorem State.writeBytes_st (s : State) (a : Nat) (bs : List Byte) : (s.writeBytes a bs).st = s.st := rfl
@[simp] theorem State.writeBytes_fb (s : State) (a : Nat) (bs : List Byte) : (s.writeBytes a bs).fb = s.fb := rfl
@[simp] theorem State.writeBytes_dirty (s : State) (a : Nat) (bs : List Byte) : (s.writeBytes a bs).dirty = s.dirty := rfl
@[simp] theorem State.writeBytes_fault (s : State) (a : Nat) (bs : List Byte) : (s.writeBytes a bs).fault = s.fault := rfl
@[simp] theorem State.writeBytes_resetHeld (s : State) (a : Nat) (bs : List Byte) : (s.writeBytes a bs).resetHeld = s.resetHeld := rfl
@[simp] theorem State.writeBytes_inputs (s : State) (a : Nat) (bs : List Byte) : (s.writeBytes a bs).inputs = s.inputs := rfl
@[simp] theorem State.writeBytes_cycle (s : State) (a : Nat) (bs : List Byte) : (s.writeBytes a bs).cycle = s.cycle := rfl

/-! ## consumeInput -/

@[simp] theorem State.consumeInput_mem (s : State) : (s.consumeInput).mem = s.mem := rfl
@[simp] theorem State.consumeInput_v (s : State) : (s.consumeInput).v = s.v := rfl
@[simp] theorem State.consumeInput_i (s : State) : (s.consumeInput).i = s.i := rfl
@[simp] theorem State.consumeInput_pc (s : State) : (s.consumeInput).pc = s.pc := rfl
@[simp] theorem State.consumeInput_stack (s : State) : (s.consumeInput).stack = s.stack := rfl
@[simp] theorem State.consumeInput_sp (s : State) : (s.consumeInput).sp = s.sp := rfl
@[simp] theorem State.consumeInput_dt (s : State) : (s.consumeInput).dt = s.dt := rfl
@[simp] theorem State.consumeInput_st (s : State) : (s.consumeInput).st = s.st := rfl
@[simp] theorem State.consumeInput_fb (s : State) : (s.consumeInput).fb = s.fb := rfl
@[simp] theorem State.consumeInput_dirty (s : State) : (s.consumeInput).dirty = s.dirty := rfl
@[simp] theorem State.consumeInput_fault (s : State) : (s.consumeInput).fault = s.fault := rfl
@[simp] theorem State.consumeInput_resetHeld (s : State) : (s.consumeInput).resetHeld = s.resetHeld := rfl
@[simp] theorem State.consumeInput_inputs (s : State) : (s.consumeInput).inputs = s.inputs.tail := rfl
@[simp] theorem State.consumeInput_cycle (s : State) : (s.consumeInput).cycle = s.cycle + 1 := rfl

/-! ## clearDirty -/

@[simp] theorem State.clearDirty_mem (s : State) : (s.clearDirty).mem = s.mem := rfl
@[simp] theorem State.clearDirty_v (s : State) : (s.clearDirty).v = s.v := rfl
@[simp] theorem State.clearDirty_i (s : State) : (s.clearDirty).i = s.i := rfl
@[simp] theorem State.clearDirty_pc (s : State) : (s.clearDirty).pc = s.pc := rfl
@[simp] theorem State.clearDirty_stack (s : State) : (s.clearDirty).stack = s.stack := rfl
@[simp] theorem State.clearDirty_sp (s : State) : (s.clearDirty).sp = s.sp := rfl
@[simp] theorem State.clearDirty_dt (s : State) : (s.clearDirty).dt = s.dt := rfl
@[simp] theorem State.clearDirty_st (s : State) : (s.clearDirty).st = s.st := rfl
@[simp] theorem State.clearDirty_fb (s : State) : (s.clearDirty).fb = s.fb := rfl
@[simp] theorem State.clearDirty_dirty (s : State) : (s.clearDirty).dirty = false := rfl
@[simp] theorem State.clearDirty_fault (s : State) : (s.clearDirty).fault = s.fault := rfl
@[simp] theorem State.clearDirty_resetHeld (s : State) : (s.clearDirty).resetHeld = s.resetHeld := rfl
@[simp] theorem State.clearDirty_inputs (s : State) : (s.clearDirty).inputs = s.inputs := rfl
@[simp] theorem State.clearDirty_cycle (s : State) : (s.clearDirty).cycle = s.cycle := rfl

/-! ## releaseReset -/

@[simp] theorem State.releaseReset_mem (s : State) : (s.releaseReset).mem = s.mem := rfl
@[simp] theorem State.releaseReset_v (s : State) : (s.releaseReset).v = s.v := rfl
@[simp] theorem State.releaseReset_i (s : State) : (s.releaseReset).i = s.i := rfl
@[simp] theorem State.releaseReset_pc (s : State) : (s.releaseReset).pc = s.pc := rfl
@[simp] theorem State.releaseReset_stack (s : State) : (s.releaseReset).stack = s.stack := rfl
@[simp] theorem State.releaseReset_sp (s : State) : (s.releaseReset).sp = s.sp := rfl
@[simp] theorem State.releaseReset_dt (s : State) : (s.releaseReset).dt = s.dt := rfl
@[simp] theorem State.releaseReset_st (s : State) : (s.releaseReset).st = s.st := rfl
@[simp] theorem State.releaseReset_fb (s : State) : (s.releaseReset).fb = s.fb := rfl
@[simp] theorem State.releaseReset_dirty (s : State) : (s.releaseReset).dirty = s.dirty := rfl
@[simp] theorem State.releaseReset_fault (s : State) : (s.releaseReset).fault = s.fault := rfl
@[simp] theorem State.releaseReset_resetHeld (s : State) : (s.releaseReset).resetHeld = false := rfl
@[simp] theorem State.releaseReset_inputs (s : State) : (s.releaseReset).inputs = s.inputs := rfl
@[simp] theorem State.releaseReset_cycle (s : State) : (s.releaseReset).cycle = s.cycle := rfl

/-! ## maintainTimers -/

@[simp] theorem State.maintainTimers_mem (s : State) (tick : Bool) : (s.maintainTimers tick).mem = s.mem := by cases tick <;> rfl
@[simp] theorem State.maintainTimers_v (s : State) (tick : Bool) : (s.maintainTimers tick).v = s.v := by cases tick <;> rfl
@[simp] theorem State.maintainTimers_i (s : State) (tick : Bool) : (s.maintainTimers tick).i = s.i := by cases tick <;> rfl
@[simp] theorem State.maintainTimers_pc (s : State) (tick : Bool) : (s.maintainTimers tick).pc = s.pc := by cases tick <;> rfl
@[simp] theorem State.maintainTimers_stack (s : State) (tick : Bool) : (s.maintainTimers tick).stack = s.stack := by cases tick <;> rfl
@[simp] theorem State.maintainTimers_sp (s : State) (tick : Bool) : (s.maintainTimers tick).sp = s.sp := by cases tick <;> rfl
@[simp] theorem State.maintainTimers_dt (s : State) (tick : Bool) :
    (s.maintainTimers tick).dt = if tick then countDown s.dt else s.dt := by cases tick <;> rfl
@[simp] theorem State.maintainTimers_st (s : State) (tick : Bool) :
    (s.maintainTimers tick).st = if tick then countDown s.st else s.st := by cases tick <;> rfl
@[simp] theorem State.maintainTimers_fb (s : State) (tick : Bool) : (s.maintainTimers tick).fb = s.fb := by cases tick <;> rfl
@[simp] theorem State.maintainTimers_dirty (s : State) (tick : Bool) : (s.maintainTimers tick).dirty = s.dirty := by cases tick <;> rfl
@[simp] theorem State.maintainTimers_fault (s : State) (tick : Bool) : (s.maintainTimers tick).fault = s.fault := by cases tick <;> rfl
@[simp] theorem State.maintainTimers_resetHeld (s : State) (tick : Bool) : (s.maintainTimers tick).resetHeld = s.resetHeld := by cases tick <;> rfl
@[simp] theorem State.maintainTimers_inputs (s : State) (tick : Bool) : (s.maintainTimers tick).inputs = s.inputs := by cases tick <;> rfl
@[simp] theorem State.maintainTimers_cycle (s : State) (tick : Bool) : (s.maintainTimers tick).cycle = s.cycle := by cases tick <;> rfl

/-! ## Registers -/

@[simp] theorem State.reg_setReg_self (s : State) (x : Reg) (b : Byte) : (s.setReg x b).reg x = b := by
  simp [State.reg, State.setReg, Vector.get_eq_getElem]

theorem State.reg_setReg_ne (s : State) (b : Byte) (x r : Reg) (h : r ≠ x) : (s.setReg x b).reg r = s.reg r := by
  have : x.val ≠ r.val := fun e => h (Fin.ext e.symm)
  simp [State.reg, State.setReg, Vector.get_eq_getElem, this]

/-- What a register reads after a write to one. -/
theorem State.reg_setReg (s : State) (x r : Reg) (b : Byte) :
    (s.setReg x b).reg r = if r = x then b else s.reg r := by
  by_cases h : r = x
  · subst h; simp
  · simp [h, State.reg_setReg_ne]

/-- What a register reads after VF is written. -/
theorem State.reg_setVF (s : State) (r : Reg) (f : Byte) : (s.setVF f).reg r = if r = VF then f else s.reg r :=
  State.reg_setReg s VF r f

@[simp] theorem State.reg_advance (s : State) (r : Reg) : s.advance.reg r = s.reg r := rfl
@[simp] theorem State.reg_skipIf (s : State) (c : Bool) (r : Reg) : (s.skipIf c).reg r = s.reg r := rfl
@[simp] theorem State.reg_raise (s : State) (k : FaultKind) (w a : Option Word) (r : Reg) :
    (s.raise k w a).reg r = s.reg r := rfl
@[simp] theorem State.reg_writeBytes (s : State) (a : Nat) (bs : List Byte) (r : Reg) :
    (s.writeBytes a bs).reg r = s.reg r := rfl
@[simp] theorem State.reg_consumeInput (s : State) (r : Reg) : s.consumeInput.reg r = s.reg r := rfl

/-! ## The stack -/

/-- What `push` can do: it stores below 16 slots, and answers nothing otherwise. -/
theorem State.push_cases (s : State) (a : Word) :
    (∃ h : s.sp.toNat < 16, s.push a = some { s with stack := s.stack.set s.sp.toNat a h, sp := s.sp + 1 }) ∨
    (16 ≤ s.sp.toNat ∧ s.push a = none) := by
  unfold State.push
  by_cases h : s.sp.toNat < 16
  · exact .inl ⟨h, by simp [h]⟩
  · exact .inr ⟨by omega, by simp [h]⟩

/-- What `top` can answer: the slot below SP, and nothing above 16. -/
theorem State.top_cases (s : State) :
    (∃ k : Fin 16, k.val = s.sp.toNat - 1 ∧ s.top = some (s.stack.get k)) ∨ (16 < s.sp.toNat ∧ s.top = none) := by
  unfold State.top
  by_cases h : s.sp.toNat - 1 < 16
  · exact .inl ⟨⟨s.sp.toNat - 1, h⟩, rfl, by simp [Vector.get_eq_getElem, h]⟩
  · exact .inr ⟨by omega, by simp; omega⟩

/-! ## Register blocks (R145, R146) -/

theorem loadRegs_getElem (m : Memory) (a n : Nat) (v : Vector Byte 16) (r : Nat) (h : r < 16) :
    (loadRegs m a n v)[r] = if r < n then m.read (a + r) else v[r] := by
  induction n with
  | zero => simp [loadRegs]
  | succ n ih =>
    rw [loadRegs, Vector.getElem_setIfInBounds]
    by_cases e : n = r
    · subst e; simp
    · have : r < n + 1 ↔ r < n := by omega
      simp [e, ih, this]

/-- What a register reads after `loadRegs`. -/
theorem loadRegs_get (m : Memory) (a n : Nat) (v : Vector Byte 16) (r : Reg) :
    (loadRegs m a n v).get r = if r.val < n then m.read (a + r.val) else v.get r := by
  rw [Vector.get_eq_getElem, Vector.get_eq_getElem, loadRegs_getElem]

/-- The bytes LD [I],Vx stores. -/
theorem State.firstRegs_length (s : State) (n : Nat) (h : n ≤ 16) : (s.firstRegs n).length = n := by
  simp [State.firstRegs, h]

/-- Byte r of what LD [I],Vx stores is V[r]. -/
theorem State.firstRegs_get (s : State) (n : Nat) (r : Reg) (h : r.val < n) :
    (s.firstRegs n)[r.val]? = some (s.reg r) := by
  simp [State.firstRegs, State.reg, Vector.get_eq_getElem, h]

end Sys2Proof.Machine
end

