-- ==== Sys2Proof/Laws/Step.lean ====
section
/-! SUPPORT. What the beginning of a cycle, the execute stage's shared checks, and one step can do, each said once. -/

namespace Sys2Proof.Machine

/-- What the instruction at PC can be: none where PC cannot be fetched or the word does not decode, else the decoded one. -/
theorem State.instrAtPc_eq_some (s : State) (i : Instr) :
    s.instrAtPc = some i ↔ s.pc.toNat ≤ 0xFFE ∧ decode s.fetchWord = .ok i := by
  unfold State.instrAtPc
  by_cases hp : 0xFFE < s.pc.toNat
  · simp [hp]
  · have : s.pc.toNat ≤ 0xFFE := by omega
    cases hd : decode s.fetchWord <;> simp [hp, this]

/-- How a cycle begins: held in reset, faulted, out of bounds, undecodable, or with an instruction to run. -/
theorem State.cycleStart_cases (s : State) :
    (s.resetHeld = true ∧ s.cycleStart = .ends s) ∨
    (s.resetHeld = false ∧ s.fault ≠ none ∧ s.cycleStart = .ends s) ∨
    (s.resetHeld = false ∧ s.fault = none ∧ 0xFFE < s.pc.toNat ∧
      s.cycleStart = .ends (s.raise .fetchBounds none none)) ∨
    (s.CanFetch ∧ (∃ e, decode s.fetchWord = .error e) ∧
      s.cycleStart = .ends (s.raise .decodeError (some s.fetchWord) none)) ∨
    (s.CanFetch ∧ ∃ i, decode s.fetchWord = .ok i ∧ s.cycleStart = .runs i) := by
  unfold State.cycleStart
  by_cases hr : s.resetHeld = true
  · exact .inl ⟨hr, by rw [if_pos hr]⟩
  · rw [if_neg hr]
    have hr : s.resetHeld = false := by simpa using hr
    cases hf : s.fault with
    | some r => exact .inr (.inl ⟨hr, by simp, by simp⟩)
    | none =>
      by_cases hp : 0xFFE < s.pc.toNat
      · exact .inr (.inr (.inl ⟨hr, rfl, hp, by simp [hp]⟩))
      · have hc : s.CanFetch := ⟨hr, hf, by omega⟩
        cases hd : decode s.fetchWord with
        | error e => exact .inr (.inr (.inr (.inl ⟨hc, ⟨e, rfl⟩, by simp [hp]⟩)))
        | ok i => exact .inr (.inr (.inr (.inr ⟨hc, i, rfl, by simp [hp]⟩)))

/-- A core that may fetch starts its cycle with the decoded instruction. -/
theorem State.cycleStart_runs (s : State) (i : Instr) (h : s.CanFetch) (hd : decode s.fetchWord = .ok i) :
    s.cycleStart = .runs i := by
  obtain ⟨hr, hf, hp⟩ := h
  have : ¬ 0xFFE < s.pc.toNat := by omega
  simp [State.cycleStart, hr, hf, this, hd]

/-- One step of a core that runs `i`. -/
theorem step_runs (s : State) (i : Instr) (h : s.CanFetch) (hd : decode s.fetchWord = .ok i) :
    step s = s.finish i (exec i s) := by
  simp [step, State.cycleStart_runs s i h hd]

/-- What one step that answers `next t` can have done: nothing (held in reset, or faulted), raised in fetch or decode, or run
the decoded instruction to `u` and ended the cycle. -/
theorem step_next_cases (s t : State) (h : step s = .next t) :
    (s.resetHeld = true ∧ t = s.consumeInput) ∨
    (s.resetHeld = false ∧ s.fault ≠ none ∧ t = s.consumeInput) ∨
    (s.resetHeld = false ∧ s.fault = none ∧ 0xFFE < s.pc.toNat ∧ t = (s.raise .fetchBounds none none).consumeInput) ∨
    (s.CanFetch ∧ (∃ e, decode s.fetchWord = .error e) ∧
      t = (s.raise .decodeError (some s.fetchWord) none).consumeInput) ∨
    (s.CanFetch ∧ ∃ i u, decode s.fetchWord = .ok i ∧ exec i s = .next u ∧ t = s.endCycle i u) := by
  unfold step at h
  rcases s.cycleStart_cases with ⟨a, e⟩ | ⟨a, b, e⟩ | ⟨a, b, c, e⟩ | ⟨a, b, e⟩ | ⟨a, i, hd, e⟩ <;> rw [e] at h
  · exact .inl ⟨a, by simpa using h.symm⟩
  · exact .inr (.inl ⟨a, b, by simpa using h.symm⟩)
  · exact .inr (.inr (.inl ⟨a, b, c, by simpa using h.symm⟩))
  · exact .inr (.inr (.inr (.inl ⟨a, b, by simpa using h.symm⟩)))
  · cases hx : exec i s with
    | next u => exact .inr (.inr (.inr (.inr ⟨a, i, u, hd, hx, by simpa [hx, State.finish] using h.symm⟩)))
    | fault f => simp [hx, State.finish] at h
    | refused r => simp [hx, State.finish] at h

/-- The end of a cycle changes DT, ST and the schedule of inputs, and nothing else. -/
theorem State.endCycle_eq (s : State) (i : Instr) (t : State) :
    s.endCycle i t =
      { t with dt := (s.endCycle i t).dt, st := (s.endCycle i t).st, inputs := t.inputs.tail, cycle := t.cycle + 1 } := by
  unfold State.endCycle
  split
  · rfl
  · cases s.input.tick <;> rfl

/-- What the key check of SKP and SKNP can do (R116). -/
theorem State.ifKey_cases (s : State) (ins : Instr) (x : Reg) (k : State) :
    ((s.reg x).toNat ≤ 15 ∧ s.ifKey ins x k = k) ∨
    (15 < (s.reg x).toNat ∧ s.ifKey ins x k = s.raise .keyRange (some (encode ins)) (some (zext16 (s.reg x)))) := by
  unfold State.ifKey
  by_cases h : 0xF < (s.reg x).toNat
  · exact .inr ⟨h, by rw [if_pos h]⟩
  · exact .inl ⟨by omega, by rw [if_neg h]⟩

/-- One timer's count, as a number (R96, R185). -/
theorem countDown_toNat (t : Byte) : (countDown t).toNat = t.toNat - 1 := by
  unfold countDown
  split
  · have : 1 ≤ t := by simpa [BitVec.le_def] using (by omega : 1 ≤ t.toNat)
    rw [BitVec.toNat_sub_of_le this]
    rfl
  · omega

/-- What an execute stage that answers a next state does to the fault record: nothing, or it raises its own fault, changing
nothing else (R98): DataBounds past memory, ProtectedWrite below 0x050, KeyRange, StackOverflow or StackUnderflow. -/
theorem exec_raises (i : Instr) (s t : State) (h : exec i s = .next t) :
    t.fault = s.fault ∨
    ∃ k a, t = s.raise k (some (encode i)) a ∧
      ((k = .dataBounds ∧ 0 < accessLength i ∧ 0xFFF < s.i.toNat + (accessLength i - 1) ∧
          a = some (BitVec.ofNat 16 (max s.i.toNat 0x1000))) ∨
        (k = .protectedWrite ∧ writesMemory i = true ∧ s.i.toNat < 0x050 ∧ a = some s.i) ∨
        (∃ x, k = .keyRange ∧ (i = .skp x ∨ i = .sknp x) ∧ 15 < (s.reg x).toNat ∧ a = some (zext16 (s.reg x))) ∨
        (k = .stackOverflow ∧ a = none ∧ s.sp = 16 ∧ ∃ b, i = .call b) ∨
        (k = .stackUnderflow ∧ a = none ∧ s.sp = 0 ∧ i = .ret)) := by
  cases i
  case ret =>
    simp only [exec, execRet] at h
    split at h
    · rename_i h0; cases h; right; exact ⟨_, _, rfl, by simp [h0]⟩
    · split at h <;> cases h; left; rfl
  case call a =>
    simp only [exec, execCall] at h
    split at h
    · rename_i h0; cases h; right; exact ⟨_, _, rfl, by simp [h0]⟩
    · rcases s.push_cases (s.pc + 2) with ⟨_, e⟩ | ⟨_, e⟩ <;> rw [e] at h <;> cases h; left; rfl
  case skp x =>
    simp only [exec, execSkp] at h
    rcases s.ifKey_cases (.skp x) x (s.skipIf (s.keyIsDown (s.reg x))) with ⟨_, e⟩ | ⟨hk, e⟩ <;> rw [e] at h <;> cases h
    · left; rfl
    · right; exact ⟨_, _, rfl, by simp [hk]⟩
  case sknp x =>
    simp only [exec, execSknp] at h
    rcases s.ifKey_cases (.sknp x) x (s.skipIf (!s.keyIsDown (s.reg x))) with ⟨_, e⟩ | ⟨hk, e⟩ <;> rw [e] at h <;> cases h
    · left; rfl
    · right; exact ⟨_, _, rfl, by simp [hk]⟩
  case drw x y n =>
    simp only [exec, execDrw] at h
    rcases s.ifReadable_cases (.drw x y n) n _ with ⟨_, e⟩ | ⟨h1, h2, e⟩ <;> rw [e] at h <;> cases h
    · left; rfl
    · right; exact ⟨_, _, rfl, .inl ⟨rfl, h1, by simp [accessLength]; omega, rfl⟩⟩
  case ldVMI x =>
    simp only [exec, execLdVMI] at h
    rcases s.ifReadable_cases (.ldVMI x) (x.val + 1) _ with ⟨_, e⟩ | ⟨h1, h2, e⟩ <;> rw [e] at h <;> cases h
    · left; rfl
    · right; exact ⟨_, _, rfl, .inl ⟨rfl, h1, by simp [accessLength]; omega, rfl⟩⟩
  case ldMI x =>
    simp only [exec, execLdMI] at h
    rcases s.ifWritable_cases (.ldMI x) (x.val + 1) _ (by omega) with ⟨_, _, e⟩ | ⟨h1, e⟩ | ⟨h1, h2, e⟩ <;>
      rw [e] at h <;> cases h
    · left; rfl
    · right; exact ⟨_, _, rfl, .inl ⟨rfl, by simp [accessLength], by simp [accessLength]; omega, rfl⟩⟩
    · right; exact ⟨_, _, rfl, .inr (.inl ⟨rfl, rfl, h1, rfl⟩)⟩
  case ldB x =>
    simp only [exec, execLdB] at h
    rcases s.ifWritable_cases (.ldB x) 3 _ (by omega) with ⟨_, _, e⟩ | ⟨h1, e⟩ | ⟨h1, h2, e⟩ <;> rw [e] at h <;> cases h
    · left; rfl
    · right; exact ⟨_, _, rfl, .inl ⟨rfl, by simp [accessLength], by simp [accessLength]; omega, rfl⟩⟩
    · right; exact ⟨_, _, rfl, .inr (.inl ⟨rfl, rfl, h1, rfl⟩)⟩
  case ldVK x =>
    simp only [exec, execLdVK] at h
    split at h <;> cases h <;> (left; rfl)
  all_goals (left; cases h; rfl)

/-- Where the stack has room or a slot, every instruction answers a next state. -/
theorem exec_next (i : Instr) (s : State) (h : s.sp.toNat ≤ 16) : ∃ t, exec i s = .next t := by
  cases i
  case ret =>
    simp only [exec, execRet]
    split
    · exact ⟨_, rfl⟩
    · rcases s.top_cases with ⟨k, _, e⟩ | ⟨h2, _⟩
      · rw [e]; exact ⟨_, rfl⟩
      · omega
  case call a =>
    simp only [exec, execCall]
    split
    · exact ⟨_, rfl⟩
    · rename_i h2
      rcases s.push_cases (s.pc + 2) with ⟨_, e⟩ | ⟨h3, _⟩
      · rw [e]; exact ⟨_, rfl⟩
      · exact absurd (BitVec.eq_of_toNat_eq (by show s.sp.toNat = 16; omega)) h2
  all_goals exact ⟨_, rfl⟩

/-- What an execute stage does to memory: nothing, or LD B and LD [I] write bytes that lie in 0x050..0xFFF. -/
theorem exec_mem (i : Instr) (s t : State) (h : exec i s = .next t) :
    t.mem = s.mem ∨
    ∃ bs, writesMemory i = true ∧ bs.length = accessLength i ∧ t.mem = s.mem.writeList s.i.toNat bs ∧
      0x050 ≤ s.i.toNat ∧ s.i.toNat + bs.length ≤ 0x1000 := by
  cases i
  case ret =>
    simp only [exec, execRet] at h
    split at h
    · cases h; exact .inl rfl
    · split at h <;> cases h; exact .inl rfl
  case call a =>
    simp only [exec, execCall] at h
    split at h
    · cases h; exact .inl rfl
    · rcases s.push_cases (s.pc + 2) with ⟨_, e⟩ | ⟨_, e⟩ <;> rw [e] at h <;> cases h
      exact .inl rfl
  case skp x =>
    rcases s.ifKey_cases (.skp x) x (s.skipIf (s.keyIsDown (s.reg x))) with ⟨_, e⟩ | ⟨_, e⟩ <;>
      simp only [exec, execSkp, e] at h <;> cases h <;> exact .inl rfl
  case sknp x =>
    rcases s.ifKey_cases (.sknp x) x (s.skipIf (!s.keyIsDown (s.reg x))) with ⟨_, e⟩ | ⟨_, e⟩ <;>
      simp only [exec, execSknp, e] at h <;> cases h <;> exact .inl rfl
  case drw x y n =>
    simp only [exec, execDrw] at h
    rcases s.ifReadable_cases (.drw x y n) n _ with ⟨_, e⟩ | ⟨_, _, e⟩ <;> rw [e] at h <;> cases h <;> exact .inl rfl
  case ldVMI x =>
    simp only [exec, execLdVMI] at h
    rcases s.ifReadable_cases (.ldVMI x) (x.val + 1) _ with ⟨_, e⟩ | ⟨_, _, e⟩ <;> rw [e] at h <;> cases h <;>
      exact .inl rfl
  case ldMI x =>
    simp only [exec, execLdMI] at h
    rcases s.ifWritable_cases (.ldMI x) (x.val + 1) _ (by omega) with ⟨h1, h2, e⟩ | ⟨_, e⟩ | ⟨_, _, e⟩ <;>
      rw [e] at h <;> cases h
    · have := s.firstRegs_length (x.val + 1) (by omega)
      exact .inr ⟨_, rfl, this, rfl, h1, by omega⟩
    all_goals exact .inl rfl
  case ldB x =>
    simp only [exec, execLdB] at h
    rcases s.ifWritable_cases (.ldB x) 3 _ (by omega) with ⟨h1, h2, e⟩ | ⟨_, e⟩ | ⟨_, _, e⟩ <;>
      rw [e] at h <;> cases h
    · exact .inr ⟨bcd (s.reg x), rfl, rfl, rfl, h1, h2⟩
    all_goals exact .inl rfl
  case ldVK x =>
    simp only [exec, execLdVK] at h
    split at h <;> cases h <;> exact .inl rfl
  all_goals cases h; exact .inl rfl

/-- What one step does to memory. -/
theorem step_mem (s t : State) (h : step s = .next t) :
    t.mem = s.mem ∨
    ∃ bs, t.mem = s.mem.writeList s.i.toNat bs ∧ 0x050 ≤ s.i.toNat ∧ s.i.toNat + bs.length ≤ 0x1000 := by
  rcases step_next_cases s t h with ⟨_, rfl⟩ | ⟨_, _, rfl⟩ | ⟨_, _, _, rfl⟩ | ⟨_, _, rfl⟩ | ⟨_, i, u, _, hx, rfl⟩
  any_goals exact .inl rfl
  rw [State.endCycle_eq]
  rcases exec_mem i s u hx with e | ⟨bs, _, _, e⟩
  · exact .inl e
  · exact .inr ⟨bs, e⟩

end Sys2Proof.Machine
end

