-- ==== Sys2Proof/Tests/Slice0.lean ====
section
/-! SUPPORT. Small tests of the model: well-formedness, one written-out word of every instruction, the worked vectors of
spec/95_test_vectors.md (L1 and L2; the comment of a test names its row), and a witness for every statement with hypotheses. -/

namespace Sys2Proof.Tests

open Sys2Proof Sys2Proof.Machine

/-! ## Building small states -/

/-- The vectors' inputs: no key, no press, rng 0, no tick (95_test_vectors.md, conventions). -/
def quiet : Input := { keyDown := 0, keyEvent := none, rng := 0, tick := false }

/-- The same with tick = 1. -/
def ticked : Input := { quiet with tick := true }

/-- The word `w` at address `pc`, about to run with one sample. -/
def readyAt (pc w : Word) (sample : Input) : State :=
  { ({ State.reset with pc := pc } : State).withFetchWord 16 w.toNat with inputs := [sample] }

/-- The word `w` at 0x200, about to run with the vectors' inputs. -/
def ready (w : Word) : State := readyAt 0x200 w quiet

/-- Registers set. -/
def withRegs (s : State) (l : List (Reg × Byte)) : State := l.foldl (fun t p => t.setReg p.1 p.2) s

/-- Bytes stored at 0x300, and I there. -/
def withBytes (s : State) (bs : List Byte) : State := { s.writeBytes 0x300 bs with i := 0x300 }

/-- What one step shows, when it answers a next state. -/
def sees {α : Type} (s : State) (f : State → α) : Option α :=
  match step s with
  | .next t => some (f t)
  | .fault _ => none
  | .refused _ => none

/-! ## Well-formedness: each check refuses an ill-formed term -/

theorem test_wellFormed_jp : (Instr.jp 0x1000).wellFormed = false ∧ (Instr.jp 0xFFF).wellFormed = true := by decide
theorem test_wellFormed_call : (Instr.call 0x1000).wellFormed = false ∧ (Instr.call 0xFFF).wellFormed = true := by decide
theorem test_wellFormed_ldI : (Instr.ldI 0xFFFF).wellFormed = false ∧ (Instr.ldI 0xFFF).wellFormed = true := by decide
theorem test_wellFormed_jpV0 : (Instr.jpV0 0x1000).wellFormed = false ∧ (Instr.jpV0 0xFFF).wellFormed = true := by decide
theorem test_wellFormed_drw : (Instr.drw 0 0 16).wellFormed = false ∧ (Instr.drw 0 0 15).wellFormed = true := by decide

/-! ## Decoding: one word of every instruction, written from the patterns of R76 to R81 -/

theorem test_decode_zero_group :
    decode 0b0000000011100000 = .ok .cls ∧ decode 0b0000000011101110 = .ok .ret := by decide

theorem test_decode_address_forms :
    decode 0b0001010001010110 = .ok (.jp 0x456) ∧ decode 0b0010111111111111 = .ok (.call 0xFFF) ∧
    decode 0b1010001011110000 = .ok (.ldI 0x2F0) ∧ decode 0b1011001110100000 = .ok (.jpV0 0x3A0) := by decide

theorem test_decode_kk_forms :
    decode 0b0011001101000010 = .ok (.seK 3 0x42) ∧ decode 0b0100001101000010 = .ok (.sneK 3 0x42) ∧
    decode 0b0110101000101011 = .ok (.ldK 10 0x2B) ∧ decode 0b0111001011111111 = .ok (.addK 2 0xFF) ∧
    decode 0b1100000100001111 = .ok (.rnd 1 0x0F) := by decide

theorem test_decode_register_pairs :
    decode 0b0101000100100000 = .ok (.seV 1 2) ∧ decode 0b1001000100100000 = .ok (.sneV 1 2) ∧
    decode 0b1000000101000000 = .ok (.ldV 1 4) ∧ decode 0b1000000101000001 = .ok (.orV 1 4) ∧
    decode 0b1000000101000010 = .ok (.andV 1 4) ∧ decode 0b1000000101000011 = .ok (.xorV 1 4) := by decide

theorem test_decode_alu :
    decode 0b1000000101000100 = .ok (.addV 1 4) ∧ decode 0b1000000101000101 = .ok (.subV 1 4) ∧
    decode 0b1000001110100110 = .ok (.shr 3) ∧ decode 0b1000000101000111 = .ok (.subnV 1 4) ∧
    decode 0b1000001110101110 = .ok (.shl 3) := by decide

theorem test_decode_draw_and_keys :
    decode 0b1101101111000101 = .ok (.drw 11 12 5) ∧ decode 0b1110010110011110 = .ok (.skp 5) ∧
    decode 0b1110010110100001 = .ok (.sknp 5) := by decide

theorem test_decode_F_group :
    decode 0b1111001100000111 = .ok (.ldVDT 3) ∧ decode 0b1111010100001010 = .ok (.ldVK 5) ∧
    decode 0b1111001100010101 = .ok (.ldDTV 3) ∧ decode 0b1111010000011000 = .ok (.ldSTV 4) ∧
    decode 0b1111001000011110 = .ok (.addI 2) ∧ decode 0b1111011100101001 = .ok (.ldF 7) ∧
    decode 0b1111000000110011 = .ok (.ldB 0) ∧ decode 0b1111001001010101 = .ok (.ldMI 2) ∧
    decode 0b1111001001100101 = .ok (.ldVMI 2) := by decide

/-- L2.2 rows 1 to 3, 5 to 7, 9 and 10. -/
theorem test_decode_illegal :
    ([0x0000, 0x0123, 0x00E1, 0x5121, 0x912F, 0x8128, 0x812D, 0x812F, 0xE59F, 0xE5A0, 0xF000, 0xF356, 0xF3FF] : List Word).all
      (fun w => decide (decode w = .error (.illegalWord w))) = true := by decide

theorem test_decodeBytes :
    decodeBytes [0x6A, 0x2B, 0x00] = .ok (.ldK 10 0x2B, [0x00]) ∧ decodeBytes [0x6A] = .error .truncated := by decide

theorem test_decodeTableWord :
    decodeTableWord 16 0x8AB5 = some (.subV 10 11) ∧ decodeTableWord 16 0x5121 = none := by decide

theorem test_withFetchWord :
    step { State.reset.withFetchWord 16 0x1456 with inputs := [quiet] } =
      .next { State.reset.withFetchWord 16 0x1456 with pc := 0x456, cycle := 1 } := by rfl

/-! ## The cycle (L2.1) -/

/-- Row 1: a fetch at 0xFFE is legal. -/
theorem test_fetch_at_last_address :
    sees (readyAt 0xFFE 0x6001 quiet) (fun t => (t.reg 0, t.pc, t.fault)) = some (0x01, 0x1000, none) := by decide

/-- Row 3: a fetch at 0xFFF is not. -/
theorem test_fetch_past_end :
    sees { State.reset with pc := 0xFFF } (fun t => (t.pc, t.fault)) = some (0xFFF, some ⟨.fetchBounds, 0xFFF, none, none⟩) := by
  decide

/-- Row 5: the fetch is big-endian. -/
theorem test_fetch_big_endian : (State.reset.writeBytes 0x200 [0x6A, 0x2B]).fetchWord = 0x6A2B := by decide

/-- Row 8: both timers stop at 0, and `clock_reset` pulses. -/
theorem test_tick :
    sees { readyAt 0x200 0x6000 ticked with dt := 1, st := 0 } (fun t => (t.dt, t.st, t.pc)) = some (0, 0, 0x202) ∧
    State.clockReset { readyAt 0x200 0x6000 ticked with dt := 1, st := 0 } = true := by decide

/-- L2.2 row 1. -/
theorem test_illegal_word :
    sees (ready 0x0000) (fun t => (t.pc, t.fault)) = some (0x200, some ⟨.decodeError, 0x200, some 0x0000, none⟩) := by decide

/-! ## Control transfer (L2.3) -/

/-- Row 2. -/
theorem test_ret :
    sees { readyAt 0x300 0x00EE quiet with sp := 16, stack := (Vector.replicate 16 0).set 15 0x444 }
      (fun t => (t.pc, t.sp, t.fault)) = some (0x444, 15, none) := by decide

/-- L2.1 row 6: no count in a faulting cycle. -/
theorem test_ret_underflow :
    sees { readyAt 0x200 0x00EE ticked with dt := 5 } (fun t => (t.pc, t.dt, t.fault)) =
      some (0x200, 5, some ⟨.stackUnderflow, 0x200, some 0x00EE, none⟩) := by decide

/-- Row 4. -/
theorem test_jp : sees (ready 0x1456) (fun t => (t.pc, t.v)) = some (0x456, Vector.replicate 16 0) := by decide

/-- Row 8. -/
theorem test_call :
    sees { readyAt 0x600 0x2300 quiet with sp := 15 } (fun t => (t.pc, t.sp, t.stack.get 15)) = some (0x300, 16, 0x602) := by decide

/-- Row 9. -/
theorem test_call_overflow :
    sees { readyAt 0x600 0x2300 quiet with sp := 16 } (fun t => (t.pc, t.sp, t.fault)) =
      some (0x600, 16, some ⟨.stackOverflow, 0x600, some 0x2300, none⟩) := by decide

/-- Row 12: not masked. -/
theorem test_jpV0 : sees (withRegs (ready 0xBFFF) [(0, 0xFF)]) (fun t => t.pc) = some 0x10FE := by decide

/-- Row 13: V0, whatever the nibble in x. -/
theorem test_jpV0_reads_V0 : sees (withRegs (ready 0xB3A0) [(3, 0x11), (10, 0x55)]) (fun t => t.pc) = some 0x3A0 := by decide

/-! ## Skips (L2.4) -/

/-- L1.2, and row 2. -/
theorem test_seK :
    sees (withRegs (ready 0x3342) [(3, 0x42)]) (fun t => t.pc) = some 0x204 ∧
    sees (withRegs (ready 0x3342) [(3, 0x41)]) (fun t => t.pc) = some 0x202 := by decide

/-- Rows 3 and 4. -/
theorem test_sneK :
    sees (withRegs (ready 0x4342) [(3, 0x42)]) (fun t => t.pc) = some 0x202 ∧
    sees (withRegs (ready 0x4342) [(3, 0x41)]) (fun t => t.pc) = some 0x204 := by decide

/-- Row 5. -/
theorem test_seV :
    sees (withRegs (ready 0x5120) [(1, 7), (2, 7)]) (fun t => t.pc) = some 0x204 := by decide

/-- Rows 7 and 8. -/
theorem test_sneV :
    sees (withRegs (ready 0x9120) [(1, 7), (2, 8)]) (fun t => t.pc) = some 0x204 ∧
    sees (withRegs (ready 0x9110) [(1, 7)]) (fun t => t.pc) = some 0x202 := by decide

/-- Rows 9 and 11. -/
theorem test_skp :
    sees (withRegs (readyAt 0x200 0xE59E { quiet with keyDown := 0x400 }) [(5, 0xA)]) (fun t => t.pc) = some 0x204 ∧
    sees (withRegs (readyAt 0x200 0xE59E { quiet with keyDown := 0xFFF7 }) [(5, 3)]) (fun t => t.pc) = some 0x202 := by decide

/-- Row 14. -/
theorem test_skp_range :
    sees (withRegs (ready 0xE59E) [(5, 0x10)]) (fun t => (t.pc, t.fault)) =
      some (0x200, some ⟨.keyRange, 0x200, some 0xE59E, some 0x10⟩) := by decide

/-- Rows 12 and 13. -/
theorem test_sknp :
    sees (withRegs (ready 0xE5A1) [(5, 0xA)]) (fun t => t.pc) = some 0x204 ∧
    sees (withRegs (readyAt 0x200 0xE5A1 { quiet with keyDown := 0x400 }) [(5, 0xA)]) (fun t => t.pc) = some 0x202 := by decide

/-- Row 15. -/
theorem test_sknp_range :
    sees (withRegs (ready 0xE5A1) [(5, 0xFF)]) (fun t => (t.pc, t.fault)) =
      some (0x200, some ⟨.keyRange, 0x200, some 0xE5A1, some 0xFF⟩) := by decide

/-! ## Loads and ALU (L2.5) -/

/-- Row 1. -/
theorem test_ldK : sees (ready 0x6A2B) (fun t => (t.reg 10, t.pc)) = some (0x2B, 0x202) := by decide

/-- Row 3: no carry flag. -/
theorem test_addK :
    sees (withRegs (ready 0x7220) [(2, 0xF0), (15, 0x55)]) (fun t => (t.reg 2, t.reg 15)) = some (0x10, 0x55) := by decide

/-- Row 6. -/
theorem test_ldV : sees (withRegs (ready 0x8140) [(4, 9)]) (fun t => (t.reg 1, t.reg 4)) = some (9, 9) := by decide

/-- Row 7: VF is left alone. -/
theorem test_orV :
    sees (withRegs (ready 0x8011) [(0, 0x0F), (1, 0xF0), (15, 7)]) (fun t => (t.reg 0, t.reg 15)) = some (0xFF, 7) := by decide

/-- Row 8. -/
theorem test_andV : sees (withRegs (ready 0x8012) [(0, 0x3C), (1, 0x0F)]) (fun t => t.reg 0) = some 0x0C := by decide

/-- Row 9. -/
theorem test_xorV : sees (withRegs (ready 0x8013) [(0, 0x3C), (1, 0x0F)]) (fun t => t.reg 0) = some 0x33 := by decide

/-- L1.6. -/
theorem test_addV :
    sees (withRegs (ready 0x8014) [(0, 200), (1, 200)]) (fun t => (t.reg 0, t.reg 15)) = some (144, 1) := by decide

/-- Row 13: the carry is written last. -/
theorem test_addV_F : sees (withRegs (ready 0x8F14) [(15, 0xFF), (1, 2)]) (fun t => t.reg 15) = some 1 := by decide

/-- Row 17. -/
theorem test_subV :
    sees (withRegs (ready 0x8125) [(1, 3), (2, 10), (15, 1)]) (fun t => (t.reg 1, t.reg 15)) = some (0xF9, 0) := by decide

/-- Row 20: y = F reads the flag just written. -/
theorem test_subV_F :
    sees (withRegs (ready 0x81F5) [(1, 5), (15, 3)]) (fun t => (t.reg 1, t.reg 15)) = some (4, 1) := by decide

/-- Row 24: y is ignored. -/
theorem test_shr :
    sees (withRegs (ready 0x83A6) [(3, 5), (10, 0x77)]) (fun t => (t.reg 3, t.reg 15, t.reg 10)) = some (2, 1, 0x77) := by decide

/-- Row 25. -/
theorem test_shr_F : sees (withRegs (ready 0x8F06) [(15, 0xFF)]) (fun t => t.reg 15) = some 0 := by decide

/-- Row 26. -/
theorem test_subnV :
    sees (withRegs (ready 0x8127) [(1, 3), (2, 10)]) (fun t => (t.reg 1, t.reg 15)) = some (7, 1) := by decide

/-- Row 29. -/
theorem test_subnV_F : sees (withRegs (ready 0x8F27) [(15, 3), (2, 10)]) (fun t => t.reg 15) = some 9 := by decide

/-- Row 31. -/
theorem test_shl : sees (withRegs (ready 0x830E) [(3, 0x81)]) (fun t => (t.reg 3, t.reg 15)) = some (2, 1) := by decide

/-- Row 33. -/
theorem test_shl_F : sees (withRegs (ready 0x8F0E) [(15, 0x80)]) (fun t => t.reg 15) = some 2 := by decide

/-- Row 35. -/
theorem test_rnd :
    sees (readyAt 0x200 0xC10F { quiet with rng := 0xB7 }) (fun t => t.reg 1) = some 0x07 := by decide

/-! ## Index register and memory (L2.6) -/

/-- Row 1. -/
theorem test_ldI : sees (ready 0xA2F0) (fun t => (t.i, t.pc)) = some (0x2F0, 0x202) := by decide

/-- Row 5: past 0xFFF with no flag. -/
theorem test_addI :
    sees { withRegs (ready 0xF21E) [(2, 0xFF), (15, 0x33)] with i := 0xFF0 } (fun t => (t.i, t.reg 15)) =
      some (0x10EF, 0x33) := by decide

/-- Row 4: the 16-bit wrap. -/
theorem test_addI_wraps : sees { withRegs (ready 0xF21E) [(2, 1)] with i := 0xFFFF } (fun t => t.i) = some 0 := by decide

/-- Row 9: not masked. -/
theorem test_ldF : sees (withRegs (ready 0xF729) [(7, 0xFF)]) (fun t => t.i) = some 0x4FB := by decide

/-- L1.1, and row 11. -/
theorem test_ldB :
    sees { withRegs (ready 0xF033) [(0, 255)] with i := 0x300 } (fun t => (t.readBytes 0x300 3, t.i)) =
      some ([2, 5, 5], 0x300) := by decide

/-- Rows 15 and 17. -/
theorem test_ldB_raises :
    sees { withRegs (ready 0xF033) [(0, 42)] with i := 0xFFE } (fun t => t.fault) =
      some (some ⟨.dataBounds, 0x200, some 0xF033, some 0x1000⟩) ∧
    sees { withRegs (ready 0xF033) [(0, 42)] with i := 0x04E } (fun t => t.fault) =
      some (some ⟨.protectedWrite, 0x200, some 0xF033, some 0x04E⟩) := by decide

/-- Row 20: V0 only, I kept. -/
theorem test_ldMI :
    sees { withRegs (ready 0xF055) [(0, 0xAA), (1, 0xBB)] with i := 0x400 } (fun t => (t.readBytes 0x400 2, t.i)) =
      some ([0xAA, 0], 0x400) := by decide

/-- Rows 22 and 23. -/
theorem test_ldMI_raises :
    sees { ready 0xFF55 with i := 0xFF1 } (fun t => t.fault) =
      some (some ⟨.dataBounds, 0x200, some 0xFF55, some 0x1000⟩) ∧
    sees { ready 0xF055 with i := 0x04F } (fun t => t.fault) =
      some (some ⟨.protectedWrite, 0x200, some 0xF055, some 0x04F⟩) := by decide

/-- Row 25: the default FONT, glyph 0. -/
theorem test_ldVMI :
    sees (ready 0xF465) (fun t => (t.firstRegs 6, t.i)) = some ([0xF0, 0x90, 0x90, 0x90, 0xF0, 0], 0) := by decide

/-- Row 29. -/
theorem test_ldVMI_raises :
    sees { ready 0xF065 with i := 0x1234 } (fun t => t.fault) =
      some (some ⟨.dataBounds, 0x200, some 0xF065, some 0x1234⟩) := by decide

/-! ## Timers and keys (L2.7) -/

/-- Row 2: read before maintenance. -/
theorem test_ldVDT :
    sees { readyAt 0x200 0xF307 ticked with dt := 0x3C } (fun t => (t.reg 3, t.dt)) = some (0x3C, 0x3B) := by decide

/-- Row 4. -/
theorem test_ldDTV : sees (withRegs (readyAt 0x200 0xF315 ticked) [(3, 5)]) (fun t => (t.dt, t.st)) = some (4, 0) := by decide

/-- Row 7. -/
theorem test_ldSTV : sees (withRegs (readyAt 0x200 0xF418 ticked) [(4, 2)]) (fun t => (t.dt, t.st)) = some (0, 1) := by decide

/-- Row 8: a hold changes nothing, whatever the tick. -/
theorem test_ldVK_holds :
    sees { readyAt 0x240 0xF50A ticked with dt := 5, st := 5 } (fun t => (t.pc, t.dt, t.st, t.reg 5)) =
      some (0x240, 5, 5, 0) ∧
    State.waitingKey (readyAt 0x240 0xF50A ticked) = true ∧ State.clockReset (readyAt 0x240 0xF50A ticked) = false := by decide

/-- Row 10. -/
theorem test_ldVK_takes :
    sees { readyAt 0x240 0xF50A { ticked with keyEvent := some 0xC } with dt := 5 } (fun t => (t.reg 5, t.pc, t.dt)) =
      some (0x0C, 0x242, 4) := by decide

/-! ## Display (L2.8) -/

/-- Row 1. -/
theorem test_cls :
    sees { ready 0x00E0 with fb := (FrameBuffer.clear.setPixel 0 0 true).setPixel 63 31 true }
      (fun t => (decide (t.fb = FrameBuffer.clear), t.dirty, t.pc)) = some (true, true, 0x202) := by decide

set_option maxRecDepth 4000 in
/-- L1.5, complete: columns 62, 63, 0, 1 and 5 of row 0. -/
theorem test_drw_wraps :
    sees (withRegs (withBytes (ready 0xD011) [0xF1]) [(0, 62)]) (fun t => (t.fb.row 0, t.reg 15, t.dirty)) =
      some (0xC000000000000023, 0, true) := by decide

set_option maxRecDepth 4000 in
/-- Row 9: (0, 0) lit, (1, 0) cleared, (5, 0) kept. -/
theorem test_drw_collides :
    sees { withBytes (ready 0xD011) [0xC0] with fb := (FrameBuffer.clear.setPixel 1 0 true).setPixel 5 0 true }
      (fun t => (t.fb.row 0, t.reg 15)) = some (0x21, 1) := by decide

/-! ## Host moves -/

/-- R200: a byte loaded under reset at 0x200 lands; at 0x1FF it is refused. -/
theorem test_load :
    ((State.reset.assertReset defaultFont ResetDraw.zero).load 0x200 0x12).readByte 0x200 = 0x12 ∧
    ((State.reset.assertReset defaultFont ResetDraw.zero).load 0x1FF 0x12).readByte 0x1FF = 0 ∧
    (State.reset.load 0x200 0x12).readByte 0x200 = 0 := by decide

/-! ## Witnesses: states and operands that meet the hypotheses of a statement, clause by clause -/

theorem test_witness_DecodeOfEncode :
    (Instr.jp 0xFFF).wellFormed = true ∧ (Instr.drw 15 15 15).wellFormed = true ∧ (Instr.cls).wellFormed = true := by decide

theorem test_witness_EncodeOfDecode :
    decode 0xDFFF = .ok (.drw 15 15 15) ∧ (∀ x, Instr.drw 15 15 15 ≠ .shr x ∧ Instr.drw 15 15 15 ≠ .shl x) ∧
    decode 0x8FA6 = .ok (.shr 15) ∧ encode (.shr 15) = 0x8F06 := by decide

/-- One illegal word of each line of R82, and a legal neighbour of each. -/
theorem test_witness_IllegalWordsAreThoseListed :
    ([0x00E1, 0x5121, 0x8128, 0x912F, 0xE59F, 0xF000] : List Word).all (fun w => decide (decode w = .error (.illegalWord w)))
      = true ∧
    ([0x00E0, 0x5120, 0x812E, 0x9120, 0xE59E, 0xF007] : List Word).all (fun w => decide (decode w ≠ .error (.illegalWord w)))
      = true := by decide

theorem test_witness_FetchIsBigEndianAndBounded :
    (readyAt 0xFFE 0x6001 quiet).fetchWord = 0x6001 ∧
    (0xFFE < State.pc { State.reset with pc := 0xFFF } ∧ State.reset.resetHeld = false ∧ State.reset.fault = none) := by decide

theorem test_witness_StepRunsDecodedInstruction :
    ((ready 0x0000).CanFetch ∧ decode (ready 0x0000).fetchWord = .error (.illegalWord 0x0000)) ∧
    ((ready 0x1456).CanFetch ∧ decode (ready 0x1456).fetchWord = .ok (.jp 0x456) ∧
      exec (.jp 0x456) (ready 0x1456) = .next { ready 0x1456 with pc := 0x456 }) ∧
    (State.CanFetch { ready 0x00EE with sp := 17 } ∧ decode (State.fetchWord { ready 0x00EE with sp := 17 }) = .ok .ret ∧
      exec .ret { ready 0x00EE with sp := 17 } = .fault .noStackSlot) :=
  ⟨by decide, ⟨by decide, by decide, rfl⟩, by decide, by decide, rfl⟩

/-- With tick = 1 and with tick = 0. -/
theorem test_witness_TimersCountDownOncePerTickedCycle :
    ((readyAt 0x200 0x1456 ticked).CanFetch ∧ decode (readyAt 0x200 0x1456 ticked).fetchWord = .ok (.jp 0x456) ∧
      exec (.jp 0x456) (readyAt 0x200 0x1456 ticked) = .next { readyAt 0x200 0x1456 ticked with pc := 0x456 } ∧
      (readyAt 0x200 0x1456 ticked).fault = none ∧ (readyAt 0x200 0x1456 ticked).holds (.jp 0x456) = false ∧
      (readyAt 0x200 0x1456 ticked).input.tick = true) ∧
    (ready 0x1456).input.tick = false ∧ (ready 0x1456).CanFetch ∧ (ready 0x1456).holds (.jp 0x456) = false :=
  ⟨⟨by decide, by decide, rfl, by decide, by decide, by decide⟩, by decide, by decide, by decide⟩

theorem test_witness_HeldCycleChangesNothing :
    (ready 0xF50A).CanFetch ∧ decode (ready 0xF50A).fetchWord = .ok (.ldVK 5) ∧ (ready 0xF50A).input.keyEvent = none ∧
    (ready 0xF50A).holds (.ldVK 5) = true := by decide

theorem test_witness_FaultingCycleWritesOnlyTheRecord :
    (ready 0x0000).fault = none ∧
    sees (ready 0x0000) (fun t => decide (t.fault ≠ none)) = some true := by decide

/-- A faulted state, and a host move that is not `reset`. -/
theorem test_witness_FaultedCoreOnlyLeavesByReset :
    (ready 0x0000).raise .decodeError (some 0) none ≠ ready 0x0000 ∧
    ((ready 0x0000).raise .decodeError (some 0) none).fault ≠ none ∧
    (∀ font draw, HostMove.clearDirty ≠ .assertReset font draw) :=
  ⟨by decide, by decide, fun _ _ h => by cases h⟩

theorem test_witness_NoCycleRunsWhileResetIsHeld :
    (State.reset.assertReset defaultFont ResetDraw.zero).resetHeld = true := rfl

/-- The kind a step raises, where it raises. -/
def raised (s : State) : Option (Option FaultKind) := sees s fun t => t.fault.map fun r => r.kind

/-- A cycle that raises each of the seven kinds, from a core that is not faulted. -/
theorem test_witness_FaultRecordHoldsItsFields :
    raised { State.reset with pc := 0xFFF } = some (some .fetchBounds) ∧
    raised (ready 0x0000) = some (some .decodeError) ∧
    raised { ready 0xD012 with i := 0xFFF } = some (some .dataBounds) ∧
    raised { ready 0x2300 with sp := 16 } = some (some .stackOverflow) ∧
    raised (ready 0x00EE) = some (some .stackUnderflow) ∧
    raised { ready 0xF055 with i := 0x04F } = some (some .protectedWrite) ∧
    raised (withRegs (ready 0xE59E) [(5, 16)]) = some (some .keyRange) := by decide

/-- SP at both ends of its range, in a core that is neither held nor faulted; and boundaries at which nothing is raised. -/
theorem test_witness_EachFaultIsRaisedExactlyWhenListed :
    ((ready 0x2300).resetHeld = false ∧ (ready 0x2300).fault = none ∧ (ready 0x2300).sp.toNat ≤ 16) ∧
    raised { ready 0x2300 with sp := 15 } = some none ∧
    raised { ready 0x00EE with sp := 16 } = some none ∧
    raised { ready 0xF065 with i := 0xFFF } = some none ∧
    raised { ready 0xF055 with i := 0x050 } = some none ∧
    raised (withRegs (ready 0xE59E) [(5, 15)]) = some none ∧
    raised { ready 0xD010 with i := 0xFFFF } = some none := by decide

theorem test_witness_FaultReportShowsTheCode :
    State.reset.fault = none ∧ (State.reset.raise .keyRange none none).fault = some ⟨.keyRange, 0x200, none, none⟩ ∧
    (State.reset.raise .keyRange none none).faultCode = 7 := by decide

theorem test_witness_StackPointerAbove16Stops : 16 < (State.sp { State.reset with sp := 17 }).toNat := by decide

/-- SP = 0, SP = 1 and SP = 16. -/
theorem test_witness_RetPopsOrUnderflows :
    State.reset.sp = 0 ∧ (State.sp { State.reset with sp := 1 }).toNat = (0 : Fin 16).val + 1 ∧
    (State.sp { State.reset with sp := 16 }).toNat = (15 : Fin 16).val + 1 := by decide

/-- SP = 16, SP = 15 and SP = 0. -/
theorem test_witness_CallPushesOrOverflows :
    State.sp { State.reset with sp := 16 } = 16 ∧ (State.sp { State.reset with sp := 15 }).toNat < 16 ∧
    State.reset.sp.toNat < 16 := by decide

theorem test_witness_RetReturnsPastTheCall :
    (State.sp { State.reset with sp := 15 }).toNat < 16 ∧ State.reset.sp.toNat < 16 := by decide

/-- Key numbers 15 and 16. -/
theorem test_witness_KeySkipsReadTheLevel :
    ((withRegs State.reset [(5, 15)]).reg 5).toNat ≤ 15 ∧ 15 < ((withRegs State.reset [(5, 16)]).reg 5).toNat := by decide

/-- Every corner case of x and y being F. -/
theorem test_witness_SubWritesNotBorrowFirst :
    ((0 : Reg) ≠ VF ∧ (14 : Reg) ≠ VF) ∧ ((15 : Reg) = VF ∧ (0 : Reg) ≠ VF) ∧ ((14 : Reg) ≠ VF ∧ (15 : Reg) = VF) := by decide

/-- Every corner case of x and y being F. -/
theorem test_witness_SubnWritesNotBorrowFirst :
    ((0 : Reg) ≠ VF ∧ (14 : Reg) ≠ VF) ∧ ((15 : Reg) = VF ∧ (0 : Reg) ≠ VF) ∧ ((14 : Reg) ≠ VF ∧ (15 : Reg) = VF) := by decide

theorem test_witness_ShiftsWriteTheBitShiftedOut : (14 : Reg) ≠ VF ∧ (15 : Reg) = VF := by decide

/-- I = 0xFFE, 0x04F, 0x050 and 0xFFD. -/
theorem test_witness_LdBStoresTheDigits :
    State.reset.mem.wf = true ∧
    0xFFF < (State.i { State.reset with i := 0xFFE }).toNat + 2 ∧
    (State.i { State.reset with i := 0x04F }).toNat < 0x050 ∧
    (0x050 ≤ (State.i { State.reset with i := 0x050 }).toNat ∧ (State.i { State.reset with i := 0xFFD }).toNat + 2 ≤ 0xFFF) := by
  decide

/-- x = F: I = 0xFF1, 0x04F, 0x050 and 0xFF0; and a register and an address of each clause. -/
theorem test_witness_LdMIStoresTheRegisters :
    State.reset.mem.wf = true ∧
    0xFFF < (State.i { State.reset with i := 0xFF1 }).toNat + (15 : Reg).val ∧
    (State.i { State.reset with i := 0x04F }).toNat < 0x050 ∧
    (0x050 ≤ (State.i { State.reset with i := 0x050 }).toNat ∧
      (State.i { State.reset with i := 0xFF0 }).toNat + (15 : Reg).val ≤ 0xFFF) ∧ (15 : Reg) ≤ 15 := by decide

/-- x = F: I = 0xFF1 and 0xFF0. -/
theorem test_witness_LdVMILoadsTheRegisters :
    0xFFF < (State.i { State.reset with i := 0xFF1 }).toNat + (15 : Reg).val ∧
    (State.i { State.reset with i := 0xFF0 }).toNat + (15 : Reg).val ≤ 0xFFF := by decide

/-- LD [I],V1 at 0x300, and the fetch at 0x300. -/
theorem test_witness_StoredBytesAreFetched :
    State.reset.mem.wf = true ∧ (0 : Reg) < 1 ∧
    (match exec (.ldMI 1) { withRegs State.reset [(0, 0x71), (1, 0x09)] with i := 0x300 } with
      | .next t => decide (t.fault = none) && decide (State.fetchWord { t with pc := 0x300 } = 0x7109)
      | .fault _ => false
      | .refused _ => false) = true ∧
    (0x300 : Word).toNat = (State.i { State.reset with i := 0x300 }).toNat + (0 : Reg).val := by decide

/-- A word of every encoding pattern that the statements of the instructions name. -/
theorem test_witness_encoding_clauses :
    ([0x1456, 0x2300, 0xA2F0, 0xBFFF, 0x3342, 0x4342, 0x6A2B, 0x7220, 0xC10F, 0xDBC5] : List Word).map fieldOp =
      [0x1, 0x2, 0xA, 0xB, 0x3, 0x4, 0x6, 0x7, 0xC, 0xD] ∧
    ([0x5120, 0x9120, 0x8120, 0x8121, 0x8122, 0x8123, 0x8124, 0x8125, 0x83A6, 0x8127, 0x83AE] : List Word).map
      (fun w => (fieldOp w, fieldN w)) = [(5, 0), (9, 0), (8, 0), (8, 1), (8, 2), (8, 3), (8, 4), (8, 5), (8, 6), (8, 7), (8, 14)] ∧
    ([0xE59E, 0xE5A1, 0xF507, 0xF50A, 0xF515, 0xF518, 0xF51E, 0xF529, 0xF533, 0xF555, 0xF565] : List Word).map
      (fun w => (fieldKK w).toNat) = [0x9E, 0xA1, 0x07, 0x0A, 0x15, 0x18, 0x1E, 0x29, 0x33, 0x55, 0x65] := by decide

/-- With tick = 1 and with tick = 0. -/
theorem test_witness_WrittenTimerCountsDownInTheSameCycle :
    ((readyAt 0x200 0xF315 ticked).CanFetch ∧ (readyAt 0x200 0xF315 ticked).input.tick = true ∧
      decode (readyAt 0x200 0xF315 ticked).fetchWord = .ok (.ldDTV 3)) ∧
    ((readyAt 0x200 0xF418 ticked).CanFetch ∧ (readyAt 0x200 0xF418 ticked).input.tick = true ∧
      decode (readyAt 0x200 0xF418 ticked).fetchWord = .ok (.ldSTV 4)) ∧
    ((ready 0xF315).CanFetch ∧ (ready 0xF315).input.tick = false ∧ decode (ready 0xF315).fetchWord = .ok (.ldDTV 3)) := by
  decide

theorem test_witness_KeyWaitTakesThePress :
    (ready 0xF50A).input.keyEvent = none ∧
    (readyAt 0x200 0xF50A { quiet with keyEvent := some 15 }).input.keyEvent = some 15 := by decide

/-- n = 15 at I = 0xFF2 and 0xFF1; n = 0 at I = 0xFFFF; a lit pixel under a sprite bit, and a blank screen. -/
theorem test_witness_DrwXorsTheSprite :
    0xFFF < (State.i { State.reset with i := 0xFF2 }).toNat + 15 - 1 ∧
    (State.i { State.reset with i := 0xFF1 }).toNat + 15 - 1 ≤ 0xFFF ∧
    (FrameBuffer.pixel (FrameBuffer.clear.setPixel 63 31 true) 63 31 = true ∧
      (withRegs State.reset [(0, 63), (1, 31)]).spriteAt 0 1 1 63 31 = true) ∧
    (∀ px py : Nat, px < 64 → py < 32 → State.reset.fb.pixel px py = true → State.reset.spriteAt 0 1 1 px py = false) := by
  refine ⟨by decide, by decide, by decide, fun px py _ _ h => ?_⟩
  exact absurd h (by rw [show State.reset.fb = FrameBuffer.clear from rfl]; simp [FrameBuffer.pixel, FrameBuffer.row, FrameBuffer.clear, *])

set_option maxRecDepth 4000 in
/-- n = 15 and n = 0; from a blank screen, x = F: the first draw leaves VF = 0, so both draws are at the same place, and the
sprite has a 1 bit; and x = F at VF = 3: the second draw is at another place. -/
theorem test_witness_DrawingTwiceRestoresTheFramebuffer :
    (15 : Nat) ≤ 15 ∧ (State.i { State.reset with i := 0xFF1 }).toNat + 15 - 1 ≤ 0xFFF ∧
    State.reset.fb = FrameBuffer.clear ∧ State.reset.readByte (State.reset.i.toNat + 0) ≠ 0 ∧
    sees (ready 0xDF11) (fun t => ((t.reg 15).toNat % 64, (t.reg 1).toNat % 32)) =
      some (((ready 0xDF11).reg 15).toNat % 64, ((ready 0xDF11).reg 1).toNat % 32) ∧
    sees (withRegs (ready 0xDF11) [(15, 3)]) (fun t => (t.reg 15).toNat % 64) = some 0 := by decide

theorem test_witness_OnlyListedInstructionsWriteV :
    exec (.ldK 3 7) State.reset = .next (State.reset.setReg 3 7).advance ∧
    (State.reset.setReg 3 7).advance.reg 3 ≠ State.reset.reg 3 := ⟨rfl, by decide⟩

set_option maxRecDepth 4000 in
/-- For each field an instruction that changes it: I, the stack and SP, DT, ST, the framebuffer and `dirty`, memory. -/
theorem test_witness_OnlyListedInstructionsWriteTheRest :
    sees (ready 0xA2F0) (fun t => decide (t.i ≠ 0)) = some true ∧
    sees (ready 0x2300) (fun t => decide (t.stack ≠ State.reset.stack) && decide (t.sp ≠ 0)) = some true ∧
    sees (withRegs (ready 0xF315) [(3, 5)]) (fun t => decide (t.dt ≠ 0)) = some true ∧
    sees (withRegs (ready 0xF318) [(3, 5)]) (fun t => decide (t.st ≠ 0)) = some true ∧
    sees (ready 0xD015) (fun t => decide (t.fb ≠ State.reset.fb) && t.dirty) = some true ∧
    sees (withRegs { ready 0xF055 with i := 0x300 } [(0, 5)]) (fun t => decide (t.mem ≠ (ready 0xF055).mem)) = some true := by
  decide

theorem test_witness_OtherInstructionsIgnoreTheInputs :
    (∀ x kk, Instr.cls ≠ .rnd x kk) ∧ (∀ x, Instr.cls ≠ .skp x ∧ Instr.cls ≠ .sknp x ∧ Instr.cls ≠ .ldVK x) :=
  ⟨nofun, fun _ => ⟨nofun, nofun, nofun⟩⟩

/-- A step from a canonical memory at the last font byte, and a load under reset. -/
theorem test_witness_FontBytesNeverChange :
    (ready 0x1456).mem.wf = true ∧ sees (ready 0x1456) (fun t => t.readByte 0x04F) = some 0x80 ∧
    (State.reset.assertReset defaultFont ResetDraw.zero).mem.wf = true ∧
    (∀ font draw, HostMove.load 0x200 0x12 ≠ .assertReset font draw) :=
  ⟨by decide, by decide, by decide, fun _ _ h => by cases h⟩

theorem test_witness_CanonicalMemoriesThatReadAlikeAreEqual :
    (Memory.write [] 0xFFF 5).wf = true ∧ (Memory.write (Memory.write [] 0xFFF 4) 0xFFF 5).wf = true ∧
    Memory.write [] 0xFFF 5 = Memory.write (Memory.write [] 0xFFF 4) 0xFFF 5 := by decide

/-- A ROM of 3584 bytes boots, one of 3585 does not; and an address of each clause about the drawn bytes. -/
theorem test_witness_BootLeavesTheResetState :
    (∃ t, State.reset.boot defaultFont ResetDraw.zero (List.replicate 3584 0xAA) = some t) ∧
    State.reset.boot defaultFont ResetDraw.zero (List.replicate 3585 0xAA) = none ∧
    ([0x12, 0x34] : List Byte)[1]? = some 0x34 ∧ 0x050 + 1 < 0x1000 ∧ 0x050 + 1 < 0x200 :=
  ⟨⟨_, if_pos (by rw [List.length_replicate])⟩, if_neg (by rw [List.length_replicate]; decide), by decide, by decide, by decide⟩

/-- Not held; held at 0x1FF; held at 0x200 and at 0xFFF. -/
theorem test_witness_LoadPortWritesOnlyUnderReset :
    State.reset.mem.wf = true ∧ State.reset.resetHeld = false ∧ (0x1FF : BitVec 12).toNat < 0x200 ∧
    (State.reset.assertReset defaultFont ResetDraw.zero).resetHeld = true ∧
    (State.reset.assertReset defaultFont ResetDraw.zero).mem.wf = true ∧
    0x200 ≤ (0x200 : BitVec 12).toNat ∧ 0x200 ≤ (0xFFF : BitVec 12).toNat := by decide

/-- The invariant at its edges: SP = 16, PC = 0xFFE, every slot 0x1000; and a step from there. -/
theorem test_witness_EveryStepKeepsTheInvariant :
    (State.Inv { readyAt 0xFFE 0x00EE quiet with sp := 16, stack := Vector.replicate 16 0x1000 }) ∧
    sees { readyAt 0xFFE 0x00EE quiet with sp := 16, stack := Vector.replicate 16 0x1000 } (fun t => (t.pc, t.sp)) =
      some (0x1000, 15) :=
  ⟨⟨by decide, by decide, by decide, by decide⟩, by decide⟩

theorem test_witness_HostMovesKeepTheInvariant :
    State.Inv { State.reset with sp := 16, pc := 0x10FE } := ⟨by decide, by decide, by decide, by decide⟩

theorem test_witness_EveryReachableStateSteps :
    Reachable { State.resetWith defaultFont ResetDraw.zero with inputs := [ticked] } :=
  Reachable.powerOn defaultFont ResetDraw.zero [ticked]

/-- The invariant at its edges, in a core that raises StackOverflow in its next cycle. -/
theorem test_witness_EveryInvariantStateStepsToAnother :
    State.Inv { ready 0x2300 with sp := 16, stack := Vector.replicate 16 0x1000 } :=
  ⟨by decide, by decide, by decide, by decide⟩

/-- R22: LD Vx,K at PC shows under `reset` too, not in a faulted core, and not at a PC that cannot be fetched. -/
theorem test_witness_WaitingKeyShowsTheInstructionAtPc :
    State.waitingKey { ready 0xF50A with resetHeld := true } = true ∧
    ((ready 0xF50A).fault = none ∧ (ready 0xF50A).pc.toNat ≤ 0xFFE ∧ decode (ready 0xF50A).fetchWord = .ok (.ldVK 5)) ∧
    ((ready 0xF50A).raise .keyRange none none).waitingKey = false ∧ (readyAt 0xFFE 0xF50A quiet).waitingKey = true ∧
    State.waitingKey { readyAt 0xFFE 0xF50A quiet with pc := 0xFFF } = false ∧ (ready 0xF507).waitingKey = false := by decide

theorem test_witness_JumpToSelfChangesNothing :
    (ready 0x1200).CanFetch ∧ (ready 0x1200).endOfRun = true ∧ (ready 0x1200).input.tick = false := by decide

end Sys2Proof.Tests
end

section
/-! PROOFS of 10_state.md, part 1: what the execute stage may write, said once for all 34 instructions. -/

namespace Sys2Proof.Machine

/-- The general registers an instruction may write: the table of R25. -/
def writesReg (i : Instr) (r : Reg) : Prop :=
  match i with
  | .ldK x _ | .addK x _ | .rnd x _ | .ldV x _ | .orV x _ | .andV x _ | .xorV x _ | .ldVDT x | .ldVK x => r = x
  | .addV x _ | .subV x _ | .subnV x _ | .shr x | .shl x => r = x ∨ r = VF
  | .drw _ _ _ => r = VF
  | .ldVMI x => r ≤ x
  | _ => False

/-- The effects an execute stage of `i` from `s` can have, by the state elements they write. It bounds an execute stage from
above: it ties each element but PC and the fault record to the instructions that may write it, not to the value written.
`jumps` bounds PC by R94's 0x10FE for the instructions the decoder can produce; `returns` and `calls` name the slot they use. -/
inductive Effect (s : State) : Instr → State → Prop where
  | raised (i : Instr) (k : FaultKind) (w a : Option Word) : Effect s i (s.raise k w a)
  | held (i : Instr) : Effect s i s
  | skips (i : Instr) (c : Bool) : Effect s i (s.skipIf c)
  | jumps (i : Instr) (p : Word) (hp : i.wellFormed = true → p.toNat ≤ 0x10FE) : Effect s i { s with pc := p }
  | returns (k : Fin 16) (hk : k.val + 1 = s.sp.toNat) :
      Effect s .ret { s with sp := s.sp - 1, pc := s.stack.get k }
  | calls (addr : Word) (h : s.sp.toNat < 16) :
      Effect s (.call addr)
        { s with stack := s.stack.set s.sp.toNat (s.pc + 2) h, sp := s.sp + 1, pc := addr }
  | regs (i : Instr) (v : Vector Byte 16) (hv : ∀ r, v.get r ≠ s.reg r → writesReg i r) :
      Effect s i { s with v := v }.advance
  | index (i : Instr) (w : Word) (hi : (∃ a, i = .ldI a) ∨ ∃ x, i = .addI x ∨ i = .ldF x) :
      Effect s i { s with i := w }.advance
  | delay (x : Reg) : Effect s (.ldDTV x) { s with dt := s.reg x }.advance
  | sound (x : Reg) : Effect s (.ldSTV x) { s with st := s.reg x }.advance
  | screen (i : Instr) (v : Vector Byte 16) (fb : FrameBuffer) (hi : i = .cls ∨ ∃ x y n, i = .drw x y n)
      (hv : ∀ r, v.get r ≠ s.reg r → writesReg i r) :
      Effect s i { s with v := v, fb := fb, dirty := true }.advance
  | stores (i : Instr) (bs : List Byte) (hi : ∃ x, i = .ldB x ∨ i = .ldMI x) :
      Effect s i (s.writeBytes s.i.toNat bs).advance

/-- A register write changes no register but its own. -/
theorem eq_of_setReg_ne (s : State) (x r : Reg) (b : Byte) (h : (s.setReg x b).reg r ≠ s.reg r) : r = x := by
  by_contra hr
  exact h (State.reg_setReg_ne s b x r hr)

/-- Writing one register that `i` may write. -/
theorem Effect.setReg {s : State} {i : Instr} {x : Reg} (b : Byte) (hx : writesReg i x) :
    Effect s i (s.setReg x b).advance :=
  .regs i (s.setReg x b).v fun r hr => eq_of_setReg_ne s x r b hr ▸ hx

/-- Writing two registers that `i` may write, one after the other. -/
theorem Effect.setReg_setReg {s : State} {i : Instr} {x y : Reg} (b c : Byte) (hx : writesReg i x)
    (hy : writesReg i y) : Effect s i ((s.setReg x b).setReg y c).advance := by
  refine .regs i ((s.setReg x b).setReg y c).v fun r hr => ?_
  by_cases hry : r = y
  · exact hry ▸ hy
  · have hrx : (s.setReg x b).reg r ≠ s.reg r := by rwa [← State.reg_setReg_ne _ c y r hry]
    exact eq_of_setReg_ne s x r b hrx ▸ hx

/-- RET raises StackUnderflow, or pops the slot below SP. -/
theorem execRet_effect (s t : State) (h : execRet s = .next t) : Effect s .ret t := by
  unfold execRet at h
  split at h
  next => cases h; exact .raised ..
  next hsp =>
    have hpos : s.sp.toNat ≠ 0 := fun h0 => hsp (BitVec.eq_of_toNat_eq h0)
    rcases s.top_cases with ⟨k, hk, e⟩ | ⟨_, e⟩ <;> rw [e] at h <;> cases h
    exact .returns k (by omega)

/-- CALL raises StackOverflow, or pushes PC + 2. -/
theorem execCall_effect (addr : Word) (s t : State) (h : execCall addr s = .next t) : Effect s (.call addr) t := by
  unfold execCall at h
  split at h
  next => cases h; exact .raised ..
  next =>
    rcases s.push_cases (s.pc + 2) with ⟨hlt, e⟩ | ⟨_, e⟩ <;> rw [e] at h <;> cases h
    exact .calls addr hlt

/-- The sum of JP V0,addr is at most 0x10FE (R94, R103). -/
theorem jpV0_target_le (addr : Word) (b : Byte) : ((addr &&& 0x0FFF) + zext16 b).toNat ≤ 0x10FE := by
  have haddr : (addr &&& 0x0FFF).toNat ≤ 0x0FFF := by
    rw [BitVec.toNat_and]; exact Nat.and_le_right
  have hb : (zext16 b).toNat = b.toNat := by
    rw [zext16, BitVec.toNat_setWidth]; exact Nat.mod_eq_of_lt (by omega)
  rw [BitVec.toNat_add, hb]
  omega

theorem Effect.ifReadable {s k : State} {i ins : Instr} (n : Nat) (hk : Effect s i k) :
    Effect s i (s.ifReadable ins n k) := by
  rcases s.ifReadable_cases ins n k with ⟨_, e⟩ | ⟨_, _, e⟩ <;> rw [e]
  · exact hk
  · exact .raised ..

theorem Effect.ifWritable {s k : State} {i ins : Instr} {n : Nat} (hn : 0 < n) (hk : Effect s i k) :
    Effect s i (s.ifWritable ins n k) := by
  rcases s.ifWritable_cases ins n k hn with ⟨_, _, e⟩ | ⟨_, e⟩ | ⟨_, _, e⟩ <;> rw [e]
  · exact hk
  · exact .raised ..
  · exact .raised ..

theorem Effect.ifKey {s k : State} {i ins : Instr} (x : Reg) (hk : Effect s i k) : Effect s i (s.ifKey ins x k) := by
  rcases s.ifKey_cases ins x k with ⟨_, e⟩ | ⟨_, e⟩ <;> rw [e]
  · exact hk
  · exact .raised ..

/-- Every execute stage that answers a next state has one of the effects. -/
theorem exec_effect (i : Instr) (s t : State) (h : exec i s = .next t) : Effect s i t := by
  cases i
  case ret => exact execRet_effect s t h
  case call addr => exact execCall_effect addr s t h
  case jp addr => cases h; exact .jumps _ _ fun hw => by simp [Instr.wellFormed, addrFits] at hw; omega
  case jpV0 addr => cases h; exact .jumps _ _ fun _ => jpV0_target_le addr (s.reg 0)
  case seK | sneK | seV | sneV => cases h; exact .skips ..
  case skp x | sknp x => cases h; exact .ifKey x (.skips ..)
  case ldK | addK | rnd | ldV | orV | andV | xorV | ldVDT => cases h; exact .setReg _ rfl
  case addV => cases h; exact .setReg_setReg _ _ (.inl rfl) (.inr rfl)
  case subV | subnV | shr | shl => cases h; exact .setReg_setReg _ _ (.inr rfl) (.inl rfl)
  case ldVK x =>
    cases h
    split
    · exact .held _
    · exact .setReg _ rfl
  case ldI addr => cases h; exact .index _ _ (.inl ⟨addr, rfl⟩)
  case addI x => cases h; exact .index _ _ (.inr ⟨x, .inl rfl⟩)
  case ldF x => cases h; exact .index _ _ (.inr ⟨x, .inr rfl⟩)
  case ldDTV x => cases h; exact .delay x
  case ldSTV x => cases h; exact .sound x
  case cls => cases h; exact .screen _ s.v _ (.inl rfl) fun _ hr => absurd rfl hr
  case drw x y n =>
    cases h
    exact .ifReadable n (.screen _ (s.setVF _).v _ (.inr ⟨x, y, n, rfl⟩) fun r hr => eq_of_setReg_ne s VF r _ hr)
  case ldB x => cases h; exact .ifWritable (by omega) (.stores _ _ ⟨x, .inl rfl⟩)
  case ldMI x => cases h; exact .ifWritable (by omega) (.stores _ _ ⟨x, .inr rfl⟩)
  case ldVMI x =>
    cases h
    refine .ifReadable _ (.regs _ _ fun r hr => ?_)
    by_contra hx
    exact hr (by rw [loadRegs_get, if_neg (by simp only [writesReg, Fin.le_def] at hx; omega)]; rfl)

/-! ## The registers (R25) -/

/-- A register that an execute stage changes is one that R25 lets the instruction write. -/
theorem writesReg_of_exec_reg_ne (i : Instr) (s t : State) (r : Reg) (h : exec i s = .next t)
    (hr : t.reg r ≠ s.reg r) : writesReg i r := by
  cases exec_effect i s t h with
  | regs _ _ hv | screen _ _ _ _ hv => exact hv r hr
  | _ => exact absurd rfl hr

/-- Settles O43: the registers that differ are those of `writesReg`, which in each constructor is the statement's row. -/
theorem onlyListedInstructionsWriteV : Obligations.OnlyListedInstructionsWriteV := by
  intro i s t r h hr
  have hw := writesReg_of_exec_reg_ne i s t r h hr
  cases i <;> simp_all [writesReg]

/-- Settles O44: each effect writes its own element, and the constructors of `Effect` name the instructions. -/
theorem onlyListedInstructionsWriteTheRest : Obligations.OnlyListedInstructionsWriteTheRest := by
  intro i s t h
  cases exec_effect i s t h with
  | index _ _ hi | screen _ _ _ hi _ | stores _ _ hi => simp [hi]
  | _ => simp

end Sys2Proof.Machine
end

section
/-! PROOFS of 10_state.md, part 2: the invariant. Every step and every host move keeps it, and under it every step answers a
next state. -/

namespace Sys2Proof.Machine

/-! ## What the decoder gives the invariant -/

theorem decode0_wellFormed (w : Word) (i : Instr) (h : decode0 w = .ok i) : i.wellFormed = true := by
  unfold decode0 at h
  split at h
  · cases h; rfl
  · split at h <;> cases h; rfl

theorem decode8_wellFormed (w : Word) (i : Instr) (h : decode8 w = .ok i) : i.wellFormed = true := by
  unfold decode8 at h
  split at h <;> cases h <;> rfl

theorem decodeE_wellFormed (w : Word) (i : Instr) (h : decodeE w = .ok i) : i.wellFormed = true := by
  unfold decodeE at h
  split at h <;> cases h <;> rfl

theorem decodeF_wellFormed (w : Word) (i : Instr) (h : decodeF w = .ok i) : i.wellFormed = true := by
  unfold decodeF at h
  split at h <;> cases h <;> rfl

/-- The decoder only answers instructions whose operands fit their fields (R73). -/
theorem decode_wellFormed (w : Word) (i : Instr) (h : decode w = .ok i) : i.wellFormed = true := by
  unfold decode at h
  split at h
  next => exact decode0_wellFormed w i h
  next => cases h; exact addrFits_fieldNNN w
  next => cases h; exact addrFits_fieldNNN w
  next => cases h; rfl
  next => cases h; rfl
  next => split at h <;> cases h; rfl
  next => cases h; rfl
  next => cases h; rfl
  next => exact decode8_wellFormed w i h
  next => split at h <;> cases h; rfl
  next => cases h; exact addrFits_fieldNNN w
  next => cases h; exact addrFits_fieldNNN w
  next => cases h; rfl
  next => cases h; exact countFits_fieldN w
  next => exact decodeE_wellFormed w i h
  next => exact decodeF_wellFormed w i h

/-! ## How the invariant is kept -/

/-- Whatever leaves SP and the stack alone keeps the invariant, given a canonical memory and a PC in range. -/
theorem State.Inv.of_same_stack {s t : State} (hs : s.Inv) (hm : t.mem.wf = true) (hp : t.pc.toNat ≤ 0x10FE)
    (hsp : t.sp = s.sp) (hst : t.stack = s.stack) : t.Inv where
  memory := hm
  depth := hsp ▸ hs.depth
  pcRange := hp
  slots := by rw [hsp, hst]; exact hs.slots

/-- The invariant says nothing of the inputs. -/
theorem State.Inv.consumeInput {s : State} (hs : s.Inv) : s.consumeInput.Inv :=
  hs.of_same_stack hs.memory hs.pcRange rfl rfl

/-- Fault entry keeps the invariant (R98). -/
theorem State.Inv.raise {s : State} (hs : s.Inv) (k : FaultKind) (w a : Option Word) : (s.raise k w a).Inv :=
  hs.of_same_stack hs.memory hs.pcRange rfl rfl

/-- The end of a cycle keeps the invariant. -/
theorem State.Inv.endCycle {u : State} (hu : u.Inv) (s : State) (i : Instr) : (s.endCycle i u).Inv := by
  rw [State.endCycle_eq]
  exact hu.of_same_stack hu.memory hu.pcRange rfl rfl

/-- RET's state keeps the invariant: the slot popped was occupied, and one slot fewer is occupied now. -/
theorem State.Inv.pop {s : State} (hs : s.Inv) (k : Fin 16) (hk : k.val + 1 = s.sp.toNat) :
    State.Inv { s with sp := s.sp - 1, pc := s.stack.get k } := by
  have hsp : (s.sp - 1).toNat = s.sp.toNat - 1 := by
    rw [BitVec.toNat_sub_of_le (BitVec.le_def.mpr (by show 1 ≤ s.sp.toNat; omega))]; rfl
  have hdepth := hs.depth
  have htop := hs.slots k (by omega)
  exact {
    memory := hs.memory
    depth := by rw [hsp]; omega
    pcRange := Nat.le_trans htop (by decide)
    slots := fun j hj => hs.slots j (by rw [hsp] at hj; omega) }

/-- CALL's state keeps the invariant: from a PC that can be fetched it pushes at most 0x1000, and there was room. -/
theorem State.Inv.push {s : State} (hs : s.Inv) (hpc : s.pc.toNat ≤ 0xFFE) (addr : Word) (ha : addr.toNat ≤ 0x0FFF)
    (h : s.sp.toNat < 16) :
    State.Inv { s with stack := s.stack.set s.sp.toNat (s.pc + 2) h, sp := s.sp + 1, pc := addr } := by
  have hsp : (s.sp + 1).toNat = s.sp.toNat + 1 := by
    rw [BitVec.toNat_add]; show (s.sp.toNat + 1) % 256 = _; omega
  have hpushed : (s.pc + 2).toNat ≤ 0x1000 := by
    rw [BitVec.toNat_add]; show (s.pc.toNat + 2) % 65536 ≤ _; omega
  refine { memory := hs.memory, depth := by rw [hsp]; omega, pcRange := Nat.le_trans ha (by decide), slots := ?_ }
  intro j hj
  rw [hsp] at hj
  rw [Vector.get_eq_getElem, Vector.getElem_set]
  split
  · exact hpushed
  · exact hs.slots j (by omega)

/-- The default and skip advances stay within 0x1002 from a PC that can be fetched. -/
theorem advance_pc_le (pc d : Word) (hpc : pc.toNat ≤ 0xFFE) (hd : d.toNat ≤ 4) :
    (pc + d).toNat ≤ 0x10FE := by
  rw [BitVec.toNat_add]; omega

/-- Every execute stage of a well-formed instruction at a PC that can be fetched keeps the invariant. -/
theorem exec_keeps_inv (i : Instr) (s t : State) (hs : s.Inv) (hpc : s.pc.toNat ≤ 0xFFE) (hw : i.wellFormed = true)
    (h : exec i s = .next t) : t.Inv := by
  have hm : t.mem.wf = true := by
    rcases exec_mem i s t h with e | ⟨bs, _, _, e, _, hfit⟩ <;> rw [e]
    · exact hs.memory
    · exact Memory.wf_writeList bs s.mem s.i.toNat hs.memory hfit
  cases exec_effect i s t h with
  | raised | held => exact hs.of_same_stack hm hs.pcRange rfl rfl
  | jumps _ _ hp => exact hs.of_same_stack hm (hp hw) rfl rfl
  | returns k hk => exact hs.pop k hk
  | calls addr hlt => exact hs.push hpc addr (by simpa [Instr.wellFormed, addrFits] using hw) hlt
  | skips _ c => exact hs.of_same_stack hm (advance_pc_le s.pc _ hpc (by cases c <;> decide)) rfl rfl
  | _ => exact hs.of_same_stack hm (advance_pc_le s.pc 2 hpc (by decide)) rfl rfl

/-- Settles O52, along what one step can have done: nothing, a fault in fetch or decode, or an execute stage. -/
theorem everyStepKeepsTheInvariant : Obligations.EveryStepKeepsTheInvariant := by
  intro s t hs h
  rcases step_next_cases s t h with
    ⟨_, rfl⟩ | ⟨_, _, rfl⟩ | ⟨_, _, _, rfl⟩ | ⟨_, _, rfl⟩ | ⟨⟨_, _, hpc⟩, i, u, hd, hx, rfl⟩
  · exact hs.consumeInput
  · exact hs.consumeInput
  · exact (hs.raise ..).consumeInput
  · exact (hs.raise ..).consumeInput
  · exact (exec_keeps_inv i s u hs hpc (decode_wellFormed _ i hd) hx).endCycle s i

/-- With SP at most 16 a step answers a next state. -/
theorem step_next (s : State) (h : s.sp.toNat ≤ 16) : ∃ t, step s = .next t := by
  cases hc : s.cycleStart with
  | ends t => exact ⟨t.consumeInput, by simp [step, hc]⟩
  | runs i =>
    obtain ⟨u, hu⟩ := exec_next i s h
    exact ⟨s.endCycle i u, by simp [step, hc, hu, State.finish]⟩

/-- Settles O56: the step answers by R29's bound on SP, and its answer meets the invariant by O52. -/
theorem everyInvariantStateStepsToAnother : Obligations.EveryInvariantStateStepsToAnother := by
  intro s hs
  obtain ⟨t, ht⟩ := step_next s hs.depth
  exact ⟨t, ht, everyStepKeepsTheInvariant s t hs ht⟩

/-! ## Reset and the host's moves -/

theorem drawnMemory_wf (bytes : List Byte) : (Memory.writeList [] 0x050 (bytes.take 0xFB0)).wf = true :=
  Memory.wf_writeList _ [] 0x050 rfl (by rw [List.length_take]; omega)

/-- Memory at reset is canonical, for every FONT and draw. -/
theorem resetMemory_wf (font : Vector Byte 80) (bytes : List Byte) : (resetMemory font bytes).wf = true :=
  Memory.wf_writeList _ _ 0 (drawnMemory_wf bytes) (by simp)

/-- A state whose memory is canonical, with nothing on the stack and PC in range, meets the invariant. -/
theorem State.Inv.of_empty_stack {s : State} (hm : s.mem.wf = true) (hp : s.pc.toNat ≤ 0x10FE) (hsp : s.sp = 0) :
    s.Inv where
  memory := hm
  depth := by rw [hsp]; decide
  pcRange := hp
  slots := by rw [hsp]; exact fun k hk => absurd hk (Nat.not_lt_zero _)

/-- Reset with any FONT and any draw meets the invariant, whatever the drawn stack holds. -/
theorem State.resetWith_inv (font : Vector Byte 80) (draw : ResetDraw) : (State.resetWith font draw).Inv :=
  .of_empty_stack (resetMemory_wf font draw.bytes) (by show 0x200 ≤ 0x10FE; decide) rfl

/-- Settles O51: reset leaves SP 0 and PC 0x200, and its memory is canonical. -/
theorem resetMeetsTheInvariant : Obligations.ResetMeetsTheInvariant :=
  ⟨State.resetWith_inv, .of_empty_stack State.reset_mem_wf (by decide) rfl⟩

/-- Settles O50: every drawn byte of the default FONT is what its address reads as unlisted, so the memory lists nothing. -/
theorem namedResetIsTheZeroDraw : Obligations.NamedResetIsTheZeroDraw := by
  have hmem : resetMemory defaultFont ResetDraw.zero.bytes = [] := by decide
  unfold Obligations.NamedResetIsTheZeroDraw State.resetWith
  rw [hmem]
  rfl

/-- What a write of the load port can do: nothing, or write its own byte, under reset and at or above 0x200 (R200). -/
theorem State.load_cases (s : State) (addr : BitVec 12) (data : Byte) :
    s.load addr data = s ∨
    (s.resetHeld = true ∧ 0x200 ≤ addr.toNat ∧ s.load addr data = s.writeBytes addr.toNat [data]) := by
  unfold State.load
  split
  next h =>
    rw [Bool.and_eq_true, decide_eq_true_eq] at h
    obtain ⟨hheld, haddr⟩ := h
    exact .inr ⟨hheld, haddr, rfl⟩
  next => exact .inl rfl

/-- Settles O53, host move by host move. -/
theorem hostMovesKeepTheInvariant : Obligations.HostMovesKeepTheInvariant := by
  intro m s hs
  cases m with
  | assertReset font draw =>
    have hreset := State.resetWith_inv font draw
    exact hreset.of_same_stack hreset.memory hreset.pcRange rfl rfl
  | load addr data =>
    rcases s.load_cases addr data with e | ⟨_, _, e⟩ <;> rw [hostMove, e]
    · exact hs
    · have hm := Memory.wf_write s.mem addr.toNat data hs.memory addr.isLt
      exact hs.of_same_stack hm hs.pcRange rfl rfl
  | releaseReset => exact hs.of_same_stack hs.memory hs.pcRange rfl rfl
  | clearDirty => exact hs.of_same_stack hs.memory hs.pcRange rfl rfl

/-- The invariant holds in every state a session can come to. -/
theorem Reachable.inv {s : State} (h : Reachable s) : s.Inv := by
  induction h with
  | powerOn font draw samples =>
    have hreset := State.resetWith_inv font draw
    exact hreset.of_same_stack hreset.memory hreset.pcRange rfl rfl
  | move m s _ ih => exact hostMovesKeepTheInvariant m s ih
  | cycle s t _ hstep ih => exact everyStepKeepsTheInvariant s t ih hstep

/-- Settles O54: the invariant of every reachable state bounds SP, and so its step answers. -/
theorem everyReachableStateSteps : Obligations.EveryReachableStateSteps :=
  fun s h => ⟨h.inv, step_next s h.inv.depth⟩

end Sys2Proof.Machine
end

section
/-! PROOFS of 10_state.md, part 3: boot (R38, R200 to R202), the model's own stop, and `waiting_key`. -/

namespace Sys2Proof.Machine

/-! ## Boot -/

/-- Under reset, the load port driven over 0x200 and up writes the list from its base (R200). -/
theorem State.loadFrom_eq_writeBytes (s : State) (base : Nat) (bs : List Byte) (hr : s.resetHeld = true)
    (hb : 0x200 ≤ base) (hfit : base + bs.length ≤ 0x1000) : s.loadFrom base bs = s.writeBytes base bs := by
  induction bs generalizing s base with
  | nil => rfl
  | cons b bs ih =>
    rw [List.length_cons] at hfit
    have haddr : (BitVec.ofNat 12 base).toNat = base := by
      rw [BitVec.toNat_ofNat]; exact Nat.mod_eq_of_lt (by omega)
    have hload : s.load (BitVec.ofNat 12 base) b = s.writeBytes base [b] := by
      simp [State.load, hr, haddr, hb]
    rw [State.loadFrom, hload, ih (s.writeBytes base [b]) (base + 1) hr (by omega) (by omega)]
    rfl

/-- What a byte of memory reads as after reset: FONT below 0x050, and the drawn byte, where there is one, above. -/
theorem resetMemory_read (font : Vector Byte 80) (bytes : List Byte) (a : Nat) :
    (resetMemory font bytes).read a =
      (font.toList[a]?).getD
        (if 0x050 ≤ a then ((bytes.take 0xFB0)[a - 0x050]?).getD (Memory.unlisted a) else Memory.unlisted a) := by
  rw [resetMemory, Memory.read_writeList _ _ _ _ (drawnMemory_wf bytes) (by simp),
    Memory.read_writeList _ [] _ _ rfl (by rw [List.length_take]; omega)]
  simp [Memory.read]

/-- A byte of FONT after reset (R38, R201). -/
theorem resetMemory_read_font (font : Vector Byte 80) (bytes : List Byte) (d : Fin 80) :
    (resetMemory font bytes).read d.val = font.get d := by
  rw [resetMemory_read]
  simp [Vector.get_eq_getElem]

/-- A drawn byte after reset (R38). -/
theorem resetMemory_read_drawn (font : Vector Byte 80) (bytes : List Byte) (k : Nat) (b : Byte)
    (hk : bytes[k]? = some b) (hlt : 0x050 + k < 0x1000) : (resetMemory font bytes).read (0x050 + k) = b := by
  have hfont : font.toList[0x050 + k]? = none := List.getElem?_eq_none (by simp)
  have hdrawn : (bytes.take 0xFB0)[k]? = some b := by rw [List.getElem?_take_of_lt (by omega), hk]
  rw [resetMemory_read, hfont, Option.getD_none, if_pos (by omega), Nat.add_sub_cancel_left, hdrawn, Option.getD_some]

/-- Boot, where the ROM fits: reset, the ROM written from 0x200 up, and release. -/
theorem State.boot_eq (s : State) (font : Vector Byte 80) (draw : ResetDraw) (rom : List Byte) (h : rom.length ≤ 3584) :
    s.boot font draw rom = some ((s.assertReset font draw).writeBytes 0x200 rom).releaseReset := by
  rw [State.boot, if_pos h, State.loadFrom_eq_writeBytes _ _ _ rfl (by omega) (by omega)]

/-- A longer ROM is refused (R202). -/
theorem State.boot_eq_none (s : State) (font : Vector Byte 80) (draw : ResetDraw) (rom : List Byte)
    (h : 3584 < rom.length) : s.boot font draw rom = none := by
  rw [State.boot, if_neg (by omega)]

/-- What a byte of memory reads as after boot: the ROM's, where it has one, and else as after reset. -/
theorem State.readByte_booted (s : State) (font : Vector Byte 80) (draw : ResetDraw) (rom : List Byte)
    (h : rom.length ≤ 3584) (a : Nat) :
    ((s.assertReset font draw).writeBytes 0x200 rom).releaseReset.readByte a =
      if 0x200 ≤ a then (rom[a - 0x200]?).getD ((resetMemory font draw.bytes).read a)
      else (resetMemory font draw.bytes).read a :=
  Memory.read_writeList rom (resetMemory font draw.bytes) 0x200 a (resetMemory_wf font draw.bytes) (by omega)

/-- Settles O48: the registers are the draw's by the equation of boot, and each byte is read through `readByte_booted`. -/
theorem bootLeavesTheResetState : Obligations.BootLeavesTheResetState := by
  intro s font draw rom
  by_cases hlen : rom.length ≤ 3584
  · rw [s.boot_eq font draw rom hlen]
    refine ⟨by simp [hlen], ?_⟩
    intro t ht
    cases ht
    have hread := s.readByte_booted font draw rom hlen
    refine ⟨rfl, rfl, rfl, rfl, rfl, rfl, rfl, rfl, rfl, rfl, rfl, ?font, ?rom, ?drawn⟩
    case font =>
      intro d
      rw [hread, if_neg (by omega), resetMemory_read_font]
    case rom =>
      intro k b hk
      rw [hread, if_pos (by omega), Nat.add_sub_cancel_left, hk, Option.getD_some]
    case drawn =>
      intro k b hk hlt hout
      have hdrawn := resetMemory_read_drawn font draw.bytes k b hk hlt
      rcases hout with hlow | hhigh
      · rw [hread, if_neg (by omega), hdrawn]
      · have hrom : rom[0x050 + k - 0x200]? = none := List.getElem?_eq_none (by omega)
        rw [hread, if_pos (by omega), hrom, Option.getD_none, hdrawn]
  · rw [s.boot_eq_none font draw rom (by omega)]
    exact ⟨by simp; omega, nofun⟩

/-! ## The model's own stop -/

/-- Settles O16: there is no slot below an SP above 16 to pop, and none to push to. -/
theorem stackPointerAbove16Stops : Obligations.StackPointerAbove16Stops := by
  intro s addr hsp
  have htop : s.top = none := by
    rcases s.top_cases with ⟨k, hk, _⟩ | ⟨_, e⟩
    · omega
    · exact e
  have hpush : s.push (s.pc + 2) = none := by
    rcases s.push_cases (s.pc + 2) with ⟨hlt, _⟩ | ⟨_, e⟩
    · omega
    · exact e
  have h0 : s.sp ≠ 0 := fun e => by simp [e] at hsp
  have h16 : s.sp ≠ 16 := fun e => by simp [e] at hsp
  constructor
  · rw [exec, execRet, if_neg h0, htop]
  · rw [exec, execCall, if_neg h16, hpush]

/-! ## `waiting_key` (R22, R37) -/

theorem isKeyWait_iff (i : Instr) : isKeyWait i = true ↔ ∃ x, i = .ldVK x := by
  cases i <;> simp [isKeyWait]

/-- `waiting_key` is 1 exactly when the core is not faulted and the instruction at PC is LD Vx,K. -/
theorem State.waitingKey_iff (s : State) :
    s.waitingKey = true ↔ s.fault = none ∧ ∃ x, s.instrAtPc = some (.ldVK x) := by
  simp only [State.waitingKey, Bool.and_eq_true, Option.isNone_iff_eq_none, Option.any_eq_true, isKeyWait_iff]
  constructor
  · rintro ⟨hf, _, hi, x, rfl⟩
    exact ⟨hf, x, hi⟩
  · rintro ⟨hf, x, hi⟩
    exact ⟨hf, _, hi, x, rfl⟩

/-- Settles O57: the word at PC does not depend on the reset port or the inputs. -/
theorem waitingKeyShowsTheInstructionAtPc : Obligations.WaitingKeyShowsTheInstructionAtPc := by
  intro s level samples
  simp only [State.waitingKey_iff, State.instrAtPc_eq_some, exists_and_left]
  rfl

end Sys2Proof.Machine
end

section
/-! PROOFS of 20_memory.md: canonical memories are determined by what they read as (R58), the font is never written (R51,
R57), and stored bytes are what a fetch reads (R53, R63). -/

namespace Sys2Proof.Machine

/-! ## The canonical form is unique (R58) -/

theorem Memory.wfFrom_cons (lo k : Nat) (c : Byte) (m : Memory) :
    Memory.wfFrom lo ((k, c) :: m) = true ↔
      lo ≤ k ∧ k < 0x1000 ∧ c ≠ Memory.unlisted k ∧ m.wfFrom (k + 1) = true := by
  simp [Memory.wfFrom, and_assoc]

/-- A memory that reads like one whose first entry lies at `k` has itself an entry at or below `k`: its canonical form starts
no higher. -/
theorem Memory.start_le_of_read_eq_cons {k lo : Nat} {c : Byte} {m m' : Memory} (hc : c ≠ Memory.unlisted k)
    (hm' : m'.wfFrom lo = true) (hread : ∀ a, Memory.read ((k, c) :: m) a = m'.read a) : lo ≤ k := by
  by_contra hlt
  have hbelow := Memory.read_below m' lo k hm' (by omega)
  have hk := hread k
  rw [Memory.read, if_pos rfl, hbelow] at hk
  exact hc hk

/-- Dropping an entry at the same address from two canonical memories that read alike leaves memories that read alike. -/
theorem Memory.read_tail_eq {k : Nat} {c c' : Byte} {m m' : Memory} (hm : m.wfFrom (k + 1) = true)
    (hm' : m'.wfFrom (k + 1) = true) (hread : ∀ a, Memory.read ((k, c) :: m) a = Memory.read ((k, c') :: m') a)
    (a : Nat) : m.read a = m'.read a := by
  by_cases hak : k = a
  · rw [Memory.read_below m _ a hm (by omega), Memory.read_below m' _ a hm' (by omega)]
  · have ha := hread a
    rwa [Memory.read, Memory.read, if_neg hak, if_neg hak] at ha

/-- Canonical memories that read alike have their first entries at the same address, with the same byte, and so on up. -/
theorem Memory.eq_of_read_eq {lo : Nat} {m m' : Memory} (hm : m.wfFrom lo = true) (hm' : m'.wfFrom lo = true)
    (hread : ∀ a, m.read a = m'.read a) : m = m' := by
  induction m generalizing lo m' with
  | nil =>
    cases m' with
    | nil => rfl
    | cons cell' m' =>
      obtain ⟨k', c'⟩ := cell'
      obtain ⟨_, _, hc', _⟩ := (Memory.wfFrom_cons lo k' c' m').mp hm'
      have hstart : k' + 1 ≤ k' := Memory.start_le_of_read_eq_cons hc' (m' := []) rfl fun a => (hread a).symm
      omega
  | cons cell m ih =>
    obtain ⟨k, c⟩ := cell
    obtain ⟨_, hk, hc, htail⟩ := (Memory.wfFrom_cons lo k c m).mp hm
    cases m' with
    | nil =>
      have hstart : k + 1 ≤ k := Memory.start_le_of_read_eq_cons hc (m' := []) rfl hread
      omega
    | cons cell' m' =>
      obtain ⟨k', c'⟩ := cell'
      obtain ⟨_, hk', hc', htail'⟩ := (Memory.wfFrom_cons lo k' c' m').mp hm'
      have hle : k' ≤ k :=
        Memory.start_le_of_read_eq_cons hc ((Memory.wfFrom_cons ..).mpr ⟨Nat.le_refl k', hk', hc', htail'⟩) hread
      have hge : k ≤ k' :=
        Memory.start_le_of_read_eq_cons hc' ((Memory.wfFrom_cons ..).mpr ⟨Nat.le_refl k, hk, hc, htail⟩)
          fun a => (hread a).symm
      obtain rfl : k = k' := Nat.le_antisymm hge hle
      have hbyte : c = c' := by simpa [Memory.read] using hread k
      rw [hbyte, ih htail htail' (Memory.read_tail_eq htail htail' hread)]

/-- Settles O47, by comparing the memories entry by entry from address 0 up. -/
theorem canonicalMemoriesThatReadAlikeAreEqual : Obligations.CanonicalMemoriesThatReadAlikeAreEqual :=
  fun _ _ => Memory.eq_of_read_eq

/-! ## The font (R51, R57) -/

/-- Writing a list leaves every byte below its base as it was. -/
theorem Memory.read_writeList_below (m : Memory) (base a : Nat) (bs : List Byte) (hm : m.wf = true)
    (hfit : base + bs.length ≤ 0x1000) (ha : a < base) : (m.writeList base bs).read a = m.read a := by
  rw [Memory.read_writeList bs m base a hm hfit, if_neg (by omega)]

/-- A step writes memory from 0x050 up, if at all. -/
theorem step_keeps_font (s t : State) (a : Nat) (hm : s.mem.wf = true) (h : step s = .next t) (ha : a < 0x050) :
    t.readByte a = s.readByte a := by
  unfold State.readByte
  rcases step_mem s t h with e | ⟨bs, e, hlow, hfit⟩ <;> rw [e]
  exact Memory.read_writeList_below _ _ _ _ hm hfit (by omega)

/-- The load port writes memory from 0x200 up, if at all (R200). -/
theorem State.load_keeps_font (s : State) (addr : BitVec 12) (data : Byte) (a : Nat) (hm : s.mem.wf = true)
    (ha : a < 0x050) : (s.load addr data).readByte a = s.readByte a := by
  rcases s.load_cases addr data with e | ⟨_, hlow, e⟩ <;> rw [e]
  exact Memory.read_writeList_below s.mem addr.toNat a [data] hm (by simp; omega) (by omega)

/-- Settles O46: a step writes at or above 0x050, and of the host's moves but reset only the load port writes, at or above
0x200. -/
theorem fontBytesNeverChange : Obligations.FontBytesNeverChange := by
  refine ⟨step_keeps_font, ?_⟩
  intro s m a hm hreset ha
  cases m with
  | assertReset font draw => exact absurd rfl (hreset font draw)
  | load addr data => exact s.load_keeps_font addr data a hm ha
  | releaseReset => rfl
  | clearDirty => rfl

/-! ## Self-modifying code (R63, R205) -/

/-- An LD [I],Vx that raised nothing stored V0..Vx inside memory and advanced. -/
theorem exec_ldMI_of_no_fault (s t : State) (x : Reg) (h : exec (.ldMI x) s = .next t) (hf : t.fault = none) :
    s.i.toNat + (x.val + 1) ≤ 0x1000 ∧ t = (s.writeBytes s.i.toNat (s.firstRegs (x.val + 1))).advance := by
  rw [exec, execLdMI] at h
  rcases s.ifWritable_cases (.ldMI x) (x.val + 1) _ (Nat.succ_pos x.val) with ⟨_, hfit, e⟩ | ⟨_, e⟩ | ⟨_, _, e⟩ <;>
    rw [e] at h <;> cases h
  · exact ⟨hfit, rfl⟩
  · cases hf
  · cases hf

/-- What a byte reads as once V0..Vx are stored from I up (R145): V[r] at I + r. -/
theorem State.readByte_writeBytes_firstRegs (s : State) (x r : Reg) (hm : s.mem.wf = true)
    (hfit : s.i.toNat + (x.val + 1) ≤ 0x1000) (hr : r ≤ x) :
    (s.writeBytes s.i.toNat (s.firstRegs (x.val + 1))).readByte (s.i.toNat + r.val) = s.reg r := by
  have hlen := s.firstRegs_length (x.val + 1) (by omega)
  have hbyte := s.firstRegs_get (x.val + 1) r (by rw [Fin.le_def] at hr; omega)
  rw [State.readByte, State.writeBytes_mem, Memory.read_writeList _ _ _ _ hm (by omega), if_pos (by omega),
    Nat.add_sub_cancel_left, hbyte, Option.getD_some]

/-- Settles O35: the fetch reads the bytes at I + r and I + r + 1, which hold V[r] and V[r + 1]. -/
theorem storedBytesAreFetched : Obligations.StoredBytesAreFetched := by
  intro s t x r p hm h hf hrx hp
  obtain ⟨hfit, rfl⟩ := exec_ldMI_of_no_fault s t x h hf
  have hnext : (r + 1).val = r.val + 1 := Fin.val_add_one_of_lt (Fin.lt_of_lt_of_le hrx (Fin.le_last x))
  have hhigh := s.readByte_writeBytes_firstRegs x r hm hfit (Fin.le_of_lt hrx)
  have hlow := s.readByte_writeBytes_firstRegs x (r + 1) hm hfit (by rw [Fin.le_def, hnext]; exact hrx)
  rw [hnext, ← Nat.add_assoc, ← hp] at hlow
  rw [← hp] at hhigh
  rw [← hhigh, ← hlow]
  rfl

end Sys2Proof.Machine
end

section
/-! PROOFS of 30_encoding.md, part 1: decoding and encoding undo each other (R72 to R74, R84, R86). -/

namespace Sys2Proof

/-! ## Decoding an encoded instruction -/

/-- Every field the decoder reads of an encoded instruction is the one the encoder wrote. -/
theorem decode_encode (i : Instr) (h : i.wellFormed = true) : decode (encode i) = .ok i := by
  cases i with
  | cls | ret => rfl
  | jp addr | call addr | ldI addr | jpV0 addr => simp [encode, decode, fieldNNN_wordA _ addr h]
  | seK x kk | sneK x kk | ldK x kk | addK x kk | rnd x kk => simp [encode, decode]
  | seV x y | sneV x y => simp [encode, decode]
  | ldV x y | orV x y | andV x y | xorV x y | addV x y | subV x y | subnV x y => simp [encode, decode, decode8]
  | shr x | shl x => simp [encode, decode, decode8]
  | drw x y n =>
    have hn : n % 16 = n := Nat.mod_eq_of_lt (Nat.lt_succ_of_le (of_decide_eq_true h))
    simp [encode, decode, hn]
  | skp x | sknp x => simp [encode, decode, decodeE]
  | ldVDT x | ldVK x | ldDTV x | ldSTV x | addI x | ldF x | ldB x | ldMI x | ldVMI x => simp [encode, decode, decodeF]

/-- Settles O2. -/
theorem decodeOfEncode : Obligations.DecodeOfEncode := decode_encode

/-! ## A word is built from its own fields -/

theorem fieldOp_le (w : Word) : fieldOp w ≤ 0xF := by
  have := w.isLt
  rw [fieldOp_eq]; omega

theorem wordA_fieldNNN (op : BitVec 4) (w : Word) (hop : fieldOp w = op.toNat) : wordA op (fieldNNN w) = w := by
  rw [fieldOp_eq] at hop
  apply BitVec.eq_of_toNat_eq; rw [wordA_toNat, fieldNNN_toNat]; omega

theorem wordXK_fieldX (op : BitVec 4) (kk : Byte) (w : Word) (hop : fieldOp w = op.toNat)
    (hk : (fieldKK w).toNat = kk.toNat) : wordXK op (fieldX w) kk = w := by
  rw [fieldOp_eq] at hop
  rw [fieldKK_toNat] at hk
  apply BitVec.eq_of_toNat_eq; rw [wordXK_toNat, fieldX_val]; omega

theorem wordXYN_fieldX_fieldY (op : BitVec 4) (n : Nat) (w : Word) (hop : fieldOp w = op.toNat) (hn : fieldN w = n) :
    wordXYN op (fieldX w) (fieldY w) n = w := by
  rw [fieldOp_eq] at hop
  rw [fieldN_eq] at hn
  apply BitVec.eq_of_toNat_eq; rw [wordXYN_toNat, fieldX_val, fieldY_val]; omega

/-- The mask 0xFF0F clears the y nibble and leaves the other three. -/
theorem wordXYN_and_FF0F (op : BitVec 4) (x y : Reg) (n : Nat) : wordXYN op x y n &&& 0xFF0F = wordXYN op x 0 n := by
  show (op ++ regNibble x ++ regNibble y ++ BitVec.ofNat 4 n : BitVec (4 + 4 + 4 + 4)) &&&
    (0xF#4 ++ 0xF#4 ++ 0x0#4 ++ 0xF#4 : BitVec (4 + 4 + 4 + 4)) = _
  simp only [BitVec.and_append, show 0xF#4 = BitVec.allOnes 4 from rfl, BitVec.and_allOnes, BitVec.and_zero]
  rfl

theorem wordXYN_fieldX_zero (op : BitVec 4) (n : Nat) (w : Word) (hop : fieldOp w = op.toNat) (hn : fieldN w = n) :
    wordXYN op (fieldX w) 0 n = w &&& 0xFF0F := by
  rw [← wordXYN_and_FF0F op (fieldX w) (fieldY w) n, wordXYN_fieldX_fieldY op n w hop hn]

/-! ## Encoding a decoded word -/

/-- The word with the bits the decoder does not read for `i` set to 0: the y nibble of SHR and SHL (R84), else none. -/
def clearUnread (i : Instr) (w : Word) : Word :=
  match i with
  | .shr _ | .shl _ => w &&& 0xFF0F
  | _ => w

theorem clearUnread_of_ne (i : Instr) (w : Word) (h : ∀ x, i ≠ .shr x ∧ i ≠ .shl x) : clearUnread i w = w := by
  cases i with
  | shr x => exact absurd rfl (h x).1
  | shl x => exact absurd rfl (h x).2
  | _ => rfl

theorem encode_decode0 (w : Word) (i : Instr) (h : decode0 w = .ok i) : encode i = clearUnread i w := by
  unfold decode0 at h
  split at h
  next hw => cases h; subst hw; rfl
  next =>
    split at h
    next hw => cases h; subst hw; rfl
    next => cases h

theorem encode_decode8 (w : Word) (i : Instr) (hop : fieldOp w = 0x8) (h : decode8 w = .ok i) :
    encode i = clearUnread i w := by
  unfold decode8 at h
  split at h <;> cases h
  -- SHR and SHL, whose y nibble the decoder drops
  case h_7 hn => exact wordXYN_fieldX_zero 0x8 0x6 w hop hn
  case h_9 hn => exact wordXYN_fieldX_zero 0x8 0xE w hop hn
  all_goals exact wordXYN_fieldX_fieldY 0x8 _ w hop ‹_›

theorem encode_decodeE (w : Word) (i : Instr) (hop : fieldOp w = 0xE) (h : decodeE w = .ok i) :
    encode i = clearUnread i w := by
  unfold decodeE at h
  split at h <;> cases h
  all_goals exact wordXK_fieldX 0xE _ w hop ‹_›

theorem encode_decodeF (w : Word) (i : Instr) (hop : fieldOp w = 0xF) (h : decodeF w = .ok i) :
    encode i = clearUnread i w := by
  unfold decodeF at h
  split at h <;> cases h
  all_goals exact wordXK_fieldX 0xF _ w hop ‹_›

/-- Encoding a decoded word gives back the bits the decoder read, and 0 where it read none. -/
theorem encode_decode (w : Word) (i : Instr) (h : decode w = .ok i) : encode i = clearUnread i w := by
  unfold decode at h
  split at h
  next => exact encode_decode0 w i h
  next hop => cases h; exact wordA_fieldNNN 0x1 w hop
  next hop => cases h; exact wordA_fieldNNN 0x2 w hop
  next hop => cases h; exact wordXK_fieldX 0x3 _ w hop rfl
  next hop => cases h; exact wordXK_fieldX 0x4 _ w hop rfl
  next hop =>
    split at h <;> cases h
    exact wordXYN_fieldX_fieldY 0x5 0 w hop ‹_›
  next hop => cases h; exact wordXK_fieldX 0x6 _ w hop rfl
  next hop => cases h; exact wordXK_fieldX 0x7 _ w hop rfl
  next hop => exact encode_decode8 w i hop h
  next hop =>
    split at h <;> cases h
    exact wordXYN_fieldX_fieldY 0x9 0 w hop ‹_›
  next hop => cases h; exact wordA_fieldNNN 0xA w hop
  next hop => cases h; exact wordA_fieldNNN 0xB w hop
  next hop => cases h; exact wordXK_fieldX 0xC _ w hop rfl
  next hop => cases h; exact wordXYN_fieldX_fieldY 0xD _ w hop rfl
  next hop => exact encode_decodeE w i hop h
  next =>
    have hop : fieldOp w = 0xF := by have := fieldOp_le w; grind
    exact encode_decodeF w i hop h

/-- Settles O3. -/
theorem encodeOfDecode : Obligations.EncodeOfDecode := by
  intro w i h
  refine ⟨Machine.decode_wellFormed w i h, fun hne => ?_, ?_⟩
  · rw [encode_decode w i h, clearUnread_of_ne i w hne]
  · rintro ⟨x, rfl | rfl⟩ <;> exact encode_decode w _ h

end Sys2Proof
end

section
/-! PROOFS of 30_encoding.md, part 2: the decoder against the opcode table (R75) and the illegal words (R82, R83). -/

namespace Sys2Proof

/-! ## When a row of each group matches (R75) -/

theorem matches_exactRow {r : OpcodeRow} (hr : r ∈ exactRows) (w : Word) : r.matches w = true ↔ w = r.mtch := by
  have hmask : ∀ r ∈ exactRows, r.mask = BitVec.allOnes 16 := by decide
  rw [OpcodeRow.matches, hmask r hr, BitVec.and_allOnes, beq_iff_eq]

theorem matches_minorByteRow {r : OpcodeRow} (hr : r ∈ minorByteRows) (w : Word) :
    r.matches w = true ↔ fieldOp w = fieldOp r.mtch ∧ (fieldKK w).toNat = (fieldKK r.mtch).toNat := by
  have hrow : ∀ r ∈ minorByteRows, r.mask = 0xF0FF ∧ r.mtch.toNat % 4096 < 256 := by decide
  obtain ⟨hmask, hfit⟩ := hrow r hr
  rw [← matches_F0FF w r.mtch r.build hfit, ← hmask]

theorem matches_minorNibbleRow {r : OpcodeRow} (hr : r ∈ minorNibbleRows) (w : Word) :
    r.matches w = true ↔ fieldOp w = fieldOp r.mtch ∧ fieldN w = fieldN r.mtch := by
  have hrow : ∀ r ∈ minorNibbleRows, r.mask = 0xF00F ∧ r.mtch.toNat % 4096 < 16 := by decide
  obtain ⟨hmask, hfit⟩ := hrow r hr
  rw [← matches_F00F w r.mtch r.build hfit, ← hmask]

theorem matches_majorRow {r : OpcodeRow} (hr : r ∈ majorRows) (w : Word) :
    r.matches w = true ↔ fieldOp w = fieldOp r.mtch := by
  have hrow : ∀ r ∈ majorRows, r.mask = 0xF000 ∧ r.mtch.toNat % 4096 = 0 := by decide
  obtain ⟨hmask, hfit⟩ := hrow r hr
  rw [← matches_F000 w r.mtch r.build hfit, ← hmask]

/-! ## A matching row gives the decoder's answer -/

theorem decode_exactRow {r : OpcodeRow} (hr : r ∈ exactRows) (w : Word) (h : r.matches w = true) :
    decode w = .ok (r.build w) := by
  rw [matches_exactRow hr] at h
  subst h
  fin_cases hr <;> rfl

theorem decode_minorByteRow {r : OpcodeRow} (hr : r ∈ minorByteRows) (w : Word) (h : r.matches w = true) :
    decode w = .ok (r.build w) := by
  obtain ⟨hop, hkk⟩ := (matches_minorByteRow hr w).mp h
  unfold decode decodeE decodeF
  rw [hop, hkk]
  fin_cases hr <;> rfl

theorem decode_minorNibbleRow {r : OpcodeRow} (hr : r ∈ minorNibbleRows) (w : Word) (h : r.matches w = true) :
    decode w = .ok (r.build w) := by
  obtain ⟨hop, hn⟩ := (matches_minorNibbleRow hr w).mp h
  unfold decode decode8
  rw [hop, hn]
  fin_cases hr <;> rfl

theorem decode_majorRow {r : OpcodeRow} (hr : r ∈ majorRows) (w : Word) (h : r.matches w = true) :
    decode w = .ok (r.build w) := by
  have hop := (matches_majorRow hr w).mp h
  unfold decode
  rw [hop]
  fin_cases hr <;> rfl

theorem decode_of_matches {r : OpcodeRow} (hr : r ∈ opcodeRows) (w : Word) (h : r.matches w = true) :
    decode w = .ok (r.build w) := by
  simp only [opcodeRows, List.mem_append] at hr
  obtain ((hr | hr) | hr) | hr := hr
  · exact decode_exactRow hr w h
  · exact decode_minorByteRow hr w h
  · exact decode_minorNibbleRow hr w h
  · exact decode_majorRow hr w h

/-! ## A decoded word has a row, and a rejected one is named (R83) -/

theorem exists_majorRow (w : Word) (h : fieldOp w ∈ majorRows.map fun r => fieldOp r.mtch) :
    ∃ r ∈ opcodeRows, r.matches w = true := by
  obtain ⟨r, hr, e⟩ := List.mem_map.mp h
  exact ⟨r, by simp [opcodeRows, hr], (matches_majorRow hr w).mpr e.symm⟩

theorem exists_minorNibbleRow (w : Word)
    (h : (fieldOp w, fieldN w) ∈ minorNibbleRows.map fun r => (fieldOp r.mtch, fieldN r.mtch)) :
    ∃ r ∈ opcodeRows, r.matches w = true := by
  obtain ⟨r, hr, e⟩ := List.mem_map.mp h
  obtain ⟨hop, hn⟩ := Prod.mk.inj e
  exact ⟨r, by simp [opcodeRows, hr], (matches_minorNibbleRow hr w).mpr ⟨hop.symm, hn.symm⟩⟩

theorem exists_minorByteRow (w : Word)
    (h : (fieldOp w, (fieldKK w).toNat) ∈ minorByteRows.map fun r => (fieldOp r.mtch, (fieldKK r.mtch).toNat)) :
    ∃ r ∈ opcodeRows, r.matches w = true := by
  obtain ⟨r, hr, e⟩ := List.mem_map.mp h
  obtain ⟨hop, hkk⟩ := Prod.mk.inj e
  exact ⟨r, by simp [opcodeRows, hr], (matches_minorByteRow hr w).mpr ⟨hop.symm, hkk.symm⟩⟩

theorem decode0_illegal_or_row (w : Word) :
    decode0 w = .error (.illegalWord w) ∨ ∃ r ∈ opcodeRows, r.matches w = true := by
  unfold decode0
  split
  next hw => exact .inr ⟨exactRows[0], by simp [opcodeRows, exactRows], (matches_exactRow (by simp) w).mpr hw⟩
  next =>
    split
    next hw => exact .inr ⟨exactRows[1], by simp [opcodeRows, exactRows], (matches_exactRow (by simp) w).mpr hw⟩
    next => exact .inl rfl

theorem decode8_illegal_or_row (w : Word) (hop : fieldOp w = 0x8) :
    decode8 w = .error (.illegalWord w) ∨ ∃ r ∈ opcodeRows, r.matches w = true := by
  unfold decode8
  split
  case h_10 => exact .inl rfl
  all_goals exact .inr (exists_minorNibbleRow w (by rw [hop, ‹fieldN w = _›]; decide))

theorem decodeE_illegal_or_row (w : Word) (hop : fieldOp w = 0xE) :
    decodeE w = .error (.illegalWord w) ∨ ∃ r ∈ opcodeRows, r.matches w = true := by
  unfold decodeE
  split
  case h_3 => exact .inl rfl
  all_goals exact .inr (exists_minorByteRow w (by rw [hop, ‹(fieldKK w).toNat = _›]; decide))

theorem decodeF_illegal_or_row (w : Word) (hop : fieldOp w = 0xF) :
    decodeF w = .error (.illegalWord w) ∨ ∃ r ∈ opcodeRows, r.matches w = true := by
  unfold decodeF
  split
  case h_10 => exact .inl rfl
  all_goals exact .inr (exists_minorByteRow w (by rw [hop, ‹(fieldKK w).toNat = _›]; decide))

/-- The decoder rejects a word by name, or a row of the table matches it. -/
theorem decode_illegal_or_row (w : Word) :
    decode w = .error (.illegalWord w) ∨ ∃ r ∈ opcodeRows, r.matches w = true := by
  unfold decode
  split
  case h_1 => exact decode0_illegal_or_row w
  case h_6 hop | h_10 hop =>
    split
    next hn => exact .inr (exists_minorNibbleRow w (by rw [hop, hn]; decide))
    next => exact .inl rfl
  case h_9 hop => exact decode8_illegal_or_row w hop
  case h_15 hop => exact decodeE_illegal_or_row w hop
  case h_16 =>
    have hop : fieldOp w = 0xF := by have := fieldOp_le w; grind
    exact decodeF_illegal_or_row w hop
  all_goals exact .inr (exists_majorRow w (by rw [‹fieldOp w = _›]; decide))

/-- The decoder is the table read row by row. -/
theorem decode_eq_decodeByRows (w : Word) : decode w = decodeByRows w := by
  unfold decodeByRows
  split
  next r hr =>
    have hm : r.matches w = true := List.find?_some (p := (OpcodeRow.matches · w)) hr
    exact decode_of_matches (List.mem_of_find?_eq_some hr) w hm
  next hnone =>
    have hno := List.find?_eq_none.mp hnone
    exact (decode_illegal_or_row w).resolve_right fun ⟨r, hr, hm⟩ => hno r hr hm

/-! ## No two rows match one word -/

/-- Two rows clash when their matches differ in a bit that both masks keep. -/
def OpcodeRow.Disjoint (r r' : OpcodeRow) : Prop := r.mtch &&& r'.mask ≠ r'.mtch &&& r.mask

theorem OpcodeRow.Disjoint.not_both {r r' : OpcodeRow} (h : r.Disjoint r') (w : Word) (hr : r.matches w = true)
    (hr' : r'.matches w = true) : False := by
  rw [OpcodeRow.matches, beq_iff_eq] at hr hr'
  apply h
  rw [← hr, ← hr', BitVec.and_assoc, BitVec.and_assoc, BitVec.and_comm r.mask]

theorem opcodeRows_pairwise_disjoint : opcodeRows.Pairwise OpcodeRow.Disjoint := by
  unfold OpcodeRow.Disjoint
  decide

theorem length_le_one_of_pairwise_false {α : Type} {l : List α} (h : l.Pairwise fun _ _ => False) : l.length ≤ 1 := by
  match l with
  | [] | [_] => simp
  | _ :: b :: _ => exact (List.rel_of_pairwise_cons h (List.mem_cons_self (a := b))).elim

/-- Two rows left by the filter would both match `w`. -/
theorem length_matchingRows_le_one (w : Word) : (opcodeRows.filter fun r => r.matches w).length ≤ 1 :=
  length_le_one_of_pairwise_false <|
    (opcodeRows_pairwise_disjoint.filter fun r => r.matches w).imp_of_mem fun hr hr' hd =>
      hd.not_both w (List.mem_filter.mp hr).2 (List.mem_filter.mp hr').2

/-- Settles O4. -/
theorem decodeIsFirstMatchingRow : Obligations.DecodeIsFirstMatchingRow :=
  fun w => ⟨decode_eq_decodeByRows w, length_matchingRows_le_one w⟩

/-! ## The illegal words (R82) -/

theorem ite_error_iff (c : Prop) [Decidable c] (i : Instr) (e : DecodeError) :
    (∃ e', (if c then Except.ok i else .error e) = .error e') ↔ ¬c := by
  split <;> simp [*]

theorem decode0_error_iff (w : Word) : (∃ e, decode0 w = .error e) ↔ w ≠ 0x00E0 ∧ w ≠ 0x00EE := by
  unfold decode0
  split
  next hw => simp [hw]
  next hw => rw [ite_error_iff, ne_eq, ne_eq, and_iff_right hw]

theorem decode8_error_iff (w : Word) :
    (∃ e, decode8 w = .error e) ↔ fieldN w ∈ [0x8, 0x9, 0xA, 0xB, 0xC, 0xD, 0xF] := by
  have hn : fieldN w < 16 := by rw [fieldN_eq]; omega
  unfold decode8
  interval_cases fieldN w <;> simp

theorem decodeE_error_iff (w : Word) : (∃ e, decodeE w = .error e) ↔ fieldKK w ∉ [0x9E, 0xA1] := by
  unfold decodeE
  split <;> simp_all [← BitVec.toNat_inj]

theorem decodeF_error_iff (w : Word) :
    (∃ e, decodeF w = .error e) ↔ fieldKK w ∉ [0x07, 0x0A, 0x15, 0x18, 0x1E, 0x29, 0x33, 0x55, 0x65] := by
  unfold decodeF
  split <;> simp_all [← BitVec.toNat_inj]

/-- Settles O5. -/
theorem illegalWordsAreThoseListed : Obligations.IllegalWordsAreThoseListed := by
  intro w
  constructor
  · have hop := fieldOp_le w
    unfold decode
    interval_cases fieldOp w <;>
      simp [ite_error_iff, decode0_error_iff, decode8_error_iff, decodeE_error_iff, decodeF_error_iff]
  · intro e h
    obtain hill | ⟨r, hr, hm⟩ := decode_illegal_or_row w
    · rw [h] at hill; exact Except.error.inj hill
    · rw [decode_of_matches hr w hm] at h; cases h

/-! ## Written-out words -/

/-- Settles O1, by running the decoder on each word. -/
theorem writtenWordsDecode : Obligations.WrittenWordsDecode := by
  unfold Obligations.WrittenWordsDecode
  decide

end Sys2Proof
end

section
/-! PROOFS of 40_cycle.md: how a cycle begins, ends and completes, each said once, and then the statements of R91 to R98. -/

namespace Sys2Proof.Machine

/-! ## Fetch and decode (R91 to R93) -/

/-- A faulted core's cycle ends where it begins (R91). -/
theorem State.cycleStart_of_faulted (s : State) (h : s.fault ≠ none) : s.cycleStart = .ends s := by
  rcases s.cycleStart_cases with ⟨_, e⟩ | ⟨_, _, e⟩ | ⟨_, hf, _⟩ | ⟨⟨_, hf, _⟩, _⟩ | ⟨⟨_, hf, _⟩, _⟩
  · exact e
  · exact e
  all_goals exact absurd hf h

/-- A PC above 0xFFE raises FetchBounds (R55, R92). -/
theorem State.cycleStart_of_pc_gt (s : State) (hr : s.resetHeld = false) (hf : s.fault = none)
    (hp : 0xFFE < s.pc.toNat) : s.cycleStart = .ends (s.raise .fetchBounds none none) := by
  simp [State.cycleStart, hr, hf, hp]

/-- An undecodable word raises DecodeError (R93). -/
theorem State.cycleStart_of_decode_error (s : State) (e : DecodeError) (h : s.CanFetch)
    (hd : decode s.fetchWord = .error e) : s.cycleStart = .ends (s.raise .decodeError (some s.fetchWord) none) := by
  obtain ⟨hr, hf, hp⟩ := h
  have hp' : ¬ 0xFFE < s.pc.toNat := by omega
  simp [State.cycleStart, hr, hf, hp', hd]

/-- A cycle that ends in fetch or decode uses up its sample and does nothing more. -/
theorem step_of_ends (s t : State) (h : s.cycleStart = .ends t) : step s = .next t.consumeInput := by
  simp [step, h]

/-- A cycle whose execute stage comes to `t` ends as `endCycle` says. -/
theorem step_of_exec_next (s t : State) (i : Instr) (hc : s.cycleStart = .runs i) (hx : exec i s = .next t) :
    step s = .next (s.endCycle i t) := by
  simp [step, hc, hx, State.finish]

/-! ## The end of a cycle (R96 to R98) -/

/-- Timer maintenance runs unless the execute stage held or raised. -/
theorem State.endCycle_eq_ite (s : State) (i : Instr) (t : State) :
    s.endCycle i t =
      (if s.holds i ∨ t.fault ≠ none then t else t.maintainTimers s.input.tick).consumeInput := by
  simp [State.endCycle, Option.isSome_iff_ne_none]

/-- A held cycle runs no timer maintenance (R97). -/
theorem State.endCycle_of_holds (s : State) (i : Instr) (t : State) (h : s.holds i = true) :
    s.endCycle i t = t.consumeInput := by
  rw [State.endCycle_eq_ite, if_pos (.inl h)]

/-- A faulting cycle runs no timer maintenance (R98). -/
theorem State.endCycle_of_faulted (s : State) (i : Instr) (t : State) (h : t.fault ≠ none) :
    s.endCycle i t = t.consumeInput := by
  rw [State.endCycle_eq_ite, if_pos (.inr h)]

/-- A completed cycle runs timer maintenance (R96). -/
theorem State.endCycle_of_completed (s : State) (i : Instr) (t : State) (hh : s.holds i = false) (hf : t.fault = none) :
    s.endCycle i t = (t.maintainTimers s.input.tick).consumeInput := by
  rw [State.endCycle_eq_ite, if_neg (by simp [hh, hf])]

/-- The end of a cycle keeps the fault record. -/
@[simp] theorem State.endCycle_fault (s : State) (i : Instr) (t : State) : (s.endCycle i t).fault = t.fault := by
  rw [State.endCycle_eq]

/-! ## Holding (R97) -/

/-- An execute stage holds exactly when it is LD Vx,K's and no key press is reported. -/
theorem State.holds_iff (s : State) (i : Instr) :
    s.holds i = true ↔ (∃ x, i = .ldVK x) ∧ s.input.keyEvent = none := by
  rw [State.holds, Bool.and_eq_true, isKeyWait_iff, Option.isNone_iff_eq_none]

/-- LD Vx,K changes nothing while no key press is reported (R153). -/
theorem exec_ldVK_of_no_key (s : State) (x : Reg) (h : s.input.keyEvent = none) : exec (.ldVK x) s = .next s := by
  rw [exec, execLdVK, h]

/-! ## Completing, and `clock_reset` (R18, R96) -/

/-- A cycle completes exactly when it runs an instruction that comes to a next state, neither held nor faulted. -/
theorem State.completes_iff (s : State) :
    s.completes = true ↔
      ∃ i t, s.cycleStart = .runs i ∧ exec i s = .next t ∧ s.holds i = false ∧ t.fault = none := by
  unfold State.completes
  cases hc : s.cycleStart with
  | ends t => simp
  | runs i => cases hx : exec i s <;> simp [hx]

/-- A cycle that completes is a safe step. -/
theorem State.safeStep_of_completes (s : State) (h : s.completes = true) : SafeStep s := by
  obtain ⟨i, t, hc, hx, _, hf⟩ := s.completes_iff.mp h
  exact ⟨s.endCycle i t, step_of_exec_next s t i hc hx, by rw [State.endCycle_fault, hf]⟩

/-- A cycle that does not complete drives no `clock_reset`. -/
theorem State.clockReset_of_not_completes (s : State) (h : ¬ s.completes = true) : s.clockReset = false := by
  simp [State.clockReset, h]

/-- A cycle that ends faulted drives no `clock_reset` (R91, R98). -/
theorem State.clockReset_of_step_faulted (s t : State) (h : step s = .next t) (hf : t.fault ≠ none) :
    s.clockReset = false := by
  refine s.clockReset_of_not_completes fun hc => ?_
  obtain ⟨u, hu, hnone⟩ := s.safeStep_of_completes hc
  rw [h] at hu
  cases hu
  exact hf hnone

/-! ## Timer maintenance (R96) -/

/-- Settles O8: the cycle completes, so its end is `maintainTimers`, and `clock_reset` is the sampled tick. -/
theorem timersCountDownOncePerTickedCycle : Obligations.TimersCountDownOncePerTickedCycle := by
  intro s t i hcan hd hx hf hh
  have hc := s.cycleStart_runs i hcan hd
  have hcompletes := s.completes_iff.mpr ⟨i, t, hc, hx, hh, hf⟩
  refine ⟨s.endCycle i t, step_of_exec_next s t i hc hx, s.endCycle_eq i t, ?ticked, ?unticked, ?clock⟩
  case ticked =>
    intro htick
    simp [s.endCycle_of_completed i t hh hf, htick, countDown_toNat]
  case unticked =>
    intro htick
    simp [s.endCycle_of_completed i t hh hf, htick]
  case clock => rw [State.clockReset, hcompletes, Bool.true_and]

/-! ## Held cycles (R97) -/

/-- Settles O9: the execute stage comes back to `s` and holds, so the cycle neither counts nor completes. -/
theorem heldCycleChangesNothing : Obligations.HeldCycleChangesNothing := by
  constructor
  · intro s x hcan hd hkey
    have hc := s.cycleStart_runs _ hcan hd
    have hx := exec_ldVK_of_no_key s x hkey
    have hholds : s.holds (.ldVK x) = true := (s.holds_iff _).mpr ⟨⟨x, rfl⟩, hkey⟩
    obtain ⟨_, hf, hpc⟩ := hcan
    refine ⟨?step, rfl, ?clock, ?waiting⟩
    case step => rw [step_of_exec_next s s _ hc hx, s.endCycle_of_holds _ s hholds]
    case clock =>
      refine s.clockReset_of_not_completes fun h => ?_
      obtain ⟨i, _, hi, _, hnot, _⟩ := s.completes_iff.mp h
      rw [hc] at hi
      cases hi
      simp [hholds] at hnot
    case waiting => exact s.waitingKey_iff.mpr ⟨hf, x, (s.instrAtPc_eq_some _).mpr ⟨hpc, hd⟩⟩
  · intro s i h
    exact ((s.holds_iff i).mp h).1

/-! ## Faults (R91, R98) -/

/-- Settles O10: fetch and decode end in the raised state, and an execute stage that ends faulted raised it (`exec_raises`). -/
theorem faultingCycleWritesOnlyTheRecord : Obligations.FaultingCycleWritesOnlyTheRecord := by
  intro s t hf h ht
  refine ⟨?_, s.clockReset_of_step_faulted t h ht⟩
  rcases step_next_cases s t h with
    ⟨_, rfl⟩ | ⟨_, hs, _⟩ | ⟨_, _, _, rfl⟩ | ⟨_, _, rfl⟩ | ⟨_, i, u, _, hx, rfl⟩
  · exact absurd hf ht
  · exact absurd hf hs
  · rfl
  · rfl
  · have hu : u.fault ≠ none := by rwa [State.endCycle_fault] at ht
    rw [s.endCycle_of_faulted i u hu]
    rcases exec_raises i s u hx with hsame | ⟨_, _, rfl, _⟩
    · exact absurd (hsame.trans hf) hu
    · rfl

/-- Every host move but `reset` keeps the fault record. -/
theorem hostMove_fault (m : HostMove) (s : State) (h : ∀ font draw, m ≠ .assertReset font draw) :
    (hostMove m s).fault = s.fault := by
  cases m with
  | assertReset font draw => exact absurd rfl (h font draw)
  | load addr data =>
    rw [hostMove]
    rcases s.load_cases addr data with e | ⟨_, _, e⟩ <;> rw [e]
    rfl
  | releaseReset => rfl
  | clearDirty => rfl

/-- Settles O11: the cycle ends where it begins, so it ends faulted, and the record goes only with `reset`. -/
theorem faultedCoreOnlyLeavesByReset : Obligations.FaultedCoreOnlyLeavesByReset := by
  intro s hf
  have hstep := step_of_ends s s (s.cycleStart_of_faulted hf)
  exact ⟨⟨hstep, s.clockReset_of_step_faulted _ hstep hf⟩, fun m hm => hostMove_fault m s hm, fun _ _ => rfl⟩

/-! ## Fetch and dispatch (R92, R93) -/

/-- Settles O6: the word is the two bytes appended, and the cycle ends in `cycleStart`. -/
theorem fetchIsBigEndianAndBounded : Obligations.FetchIsBigEndianAndBounded := by
  intro s
  constructor
  · exact append_toNat (s.readByte s.pc.toNat) (s.readByte (s.pc.toNat + 1))
  · intro hr hf hp
    exact step_of_ends s _ (s.cycleStart_of_pc_gt hr hf hp)

/-- Every instruction has a meaning: RET and CALL may stop with the model's own fault, and none is refused. -/
theorem exec_ne_refused (i : Instr) (s : State) (r : Refusal) : exec i s ≠ .refused r := by
  cases i
  case ret =>
    simp only [exec, execRet]
    split
    · nofun
    · cases s.top <;> nofun
  case call addr =>
    simp only [exec, execCall]
    split
    · nofun
    · cases s.push (s.pc + 2) <;> nofun
  all_goals nofun

/-- Settles O7, along what decode answers and then what the execute stage answers. -/
theorem stepRunsDecodedInstruction : Obligations.StepRunsDecodedInstruction := by
  intro s hcan
  constructor
  · intro e hd
    exact step_of_ends s _ (s.cycleStart_of_decode_error e hcan hd)
  · intro i hd
    refine ⟨?next, ?stop, exec_ne_refused i s⟩
    case next =>
      intro t hx
      rw [step_of_exec_next s t i (s.cycleStart_runs i hcan hd) hx, State.endCycle_eq_ite]
    case stop =>
      intro f hx
      rw [step_runs s i hcan hd, hx, State.finish]

end Sys2Proof.Machine
end

section
/-! PROOFS of 41_control_flow.md: what RET, CALL and JP V0 answer where they complete, each said once, and then the statements
of R100 to R103. -/

namespace Sys2Proof.Machine

/-- A row of R75 that is masked by 0xF000 and takes nnn states the pattern `op nnn` of its instruction. -/
theorem decodesA_of_mem_majorRows {m : Word} {i : Word → Instr}
    (hr : (⟨0xF000, m, fun w => i (fieldNNN w)⟩ : OpcodeRow) ∈ majorRows) : DecodesA (fieldOp m) i :=
  fun w hop => decode_majorRow hr w ((matches_majorRow hr w).mpr hop)

/-! ## RET and CALL where they complete (R100, R102) -/

/-- RET with k + 1 occupied slots pops slot k. -/
theorem exec_ret_of_occupied (s : State) (k : Fin 16) (h : s.sp.toNat = k.val + 1) :
    exec .ret s = .next { s with sp := s.sp - 1, pc := s.stack.get k } := by
  have h0 : s.sp ≠ 0 := fun e => by simp [e] at h
  rw [exec, execRet, if_neg h0]
  rcases s.top_cases with ⟨j, hj, e⟩ | ⟨hgt, _⟩
  · obtain rfl : j = k := Fin.ext (by omega)
    rw [e]
  · omega

/-- CALL with a free slot pushes PC + 2 into it and jumps. -/
theorem exec_call_of_room (s : State) (addr : Word) (h : s.sp.toNat < 16) :
    exec (.call addr) s =
      .next { s with stack := s.stack.set s.sp.toNat (s.pc + 2) h, sp := s.sp + 1, pc := addr } := by
  have h16 : s.sp ≠ 16 := fun e => by simp [e] at h
  rw [exec, execCall, if_neg h16]
  rcases s.push_cases (s.pc + 2) with ⟨_, e⟩ | ⟨hge, _⟩
  · rw [e]
  · omega

/-- With a free slot SP counts up without wrapping. -/
theorem sp_succ_toNat (sp : Byte) (h : sp.toNat < 16) : (sp + 1).toNat = sp.toNat + 1 :=
  BitVec.toNat_add_of_lt (Nat.lt_trans (Nat.add_lt_add_right h 1) (by decide))

/-- What a slot holds after one is written. -/
theorem stack_get_set (stack : Vector Word 16) (n : Nat) (a : Word) (h : n < 16) (k : Fin 16) :
    (stack.set n a h).get k = if k.val = n then a else stack.get k := by
  rw [Vector.get_eq_getElem, Vector.get_eq_getElem, Vector.getElem_set]
  simp only [eq_comm (a := n)]

/-! ## JP V0 (R103) -/

/-- The sum of JP V0,addr as a number: 0x0FFF + 0xFF fits 13 bits, so it does not wrap (R103). -/
theorem jpV0_target_toNat (addr : Word) (b : Byte) :
    ((addr &&& 0x0FFF) + zext16 b).toNat = addr.toNat % 0x1000 + b.toNat := by
  have haddr : (addr &&& 0x0FFF).toNat = addr.toNat % 0x1000 :=
    (BitVec.toNat_and ..).trans (Nat.and_two_pow_sub_one_eq_mod addr.toNat 12)
  have hb : (zext16 b).toNat = b.toNat := BitVec.toNat_setWidth_of_le (by decide)
  rw [BitVec.toNat_add_of_lt (by rw [haddr, hb]; omega), haddr, hb]

/-! ## The statements -/

/-- Settles O17: SP = k + 1 is at least 1, so SP - 1 does not wrap, and the slot below it is slot k. -/
theorem retPopsOrUnderflows : Obligations.RetPopsOrUnderflows := by
  refine ⟨decode_encode .ret rfl, fun s => ⟨fun h0 => ?_, fun k hk => ?_⟩⟩
  · rw [Raises, exec, execRet, if_pos h0, State.raise]
  · have hsp : (s.sp - 1).toNat = k.val := by bv_omega
    exact ⟨_, exec_ret_of_occupied s k hk, rfl, hsp, rfl, fun _ => rfl⟩

/-- Settles O18: `execJp` writes PC alone. -/
theorem jpSetsPc : Obligations.JpSetsPc := by
  refine ⟨decodesA_of_mem_majorRows (m := 0x1000) (by simp [majorRows]), fun s addr => ?_⟩
  exact ⟨{ s with pc := addr }, rfl, ⟨rfl, fun _ => rfl, fun _ => rfl⟩, rfl⟩

/-- Settles O19: below 16 SP + 1 does not wrap, and the slot written is slot SP. -/
theorem callPushesOrOverflows : Obligations.CallPushesOrOverflows := by
  refine ⟨decodesA_of_mem_majorRows (m := 0x2000) (by simp [majorRows]), fun s addr => ⟨fun h16 => ?_, fun hlt => ?_⟩⟩
  · rw [Raises, exec, execCall, if_pos h16, State.raise]
  · exact ⟨_, exec_call_of_room s addr hlt, rfl, sp_succ_toNat s.sp hlt, rfl,
      stack_get_set s.stack s.sp.toNat (s.pc + 2) hlt, fun _ => rfl⟩

/-- Settles O20: `execJpV0` writes PC alone, with the sum of `jpV0_target_toNat`. -/
theorem jpV0AddsV0 : Obligations.JpV0AddsV0 := by
  refine ⟨decodesA_of_mem_majorRows (m := 0xB000) (by simp [majorRows]), fun s addr => ?_⟩
  exact ⟨{ s with pc := (addr &&& 0x0FFF) + zext16 (s.reg 0) }, rfl, ⟨rfl, fun _ => rfl, fun _ => rfl⟩,
    jpV0_target_toNat addr (s.reg 0), jpV0_target_le addr (s.reg 0)⟩

/-- Settles O21: the slot RET pops is the one CALL wrote, and SP + 1 - 1 is SP. -/
theorem retReturnsPastTheCall : Obligations.RetReturnsPastTheCall := by
  intro s addr hlt
  have hslot := stack_get_set s.stack s.sp.toNat (s.pc + 2) hlt
  refine ⟨_, _, exec_call_of_room s addr hlt,
    exec_ret_of_occupied _ ⟨s.sp.toNat, hlt⟩ (sp_succ_toNat s.sp hlt), ?_, fun k hk => ?_⟩
  · rw [hslot, if_pos rfl, BitVec.add_sub_cancel]
  · exact (hslot k).trans (if_neg hk)

end Sys2Proof.Machine
end

section
/-! PROOFS of 42_skips.md: what a pattern of R76 to R81 decodes to, read from its row of the table, what a conditional skip
and the key check do, each said once, and then the statements of R110 to R116. -/

namespace Sys2Proof.Machine

/-! ## Patterns, from the rows of the table (R72, R75) -/

/-- A row that is masked by 0xF000 and takes x and kk states the pattern `op x kk` of its instruction. -/
theorem decodesXK_of_mem_majorRows {m : Word} {i : Reg → Byte → Instr}
    (hr : (⟨0xF000, m, fun w => i (fieldX w) (fieldKK w)⟩ : OpcodeRow) ∈ majorRows) : DecodesXK (fieldOp m) i :=
  fun w hop => decode_majorRow hr w ((matches_majorRow hr w).mpr hop)

/-- A row that is masked by 0xF00F and takes x and y states the pattern `op x y m` of its instruction. -/
theorem decodesXY_of_mem_minorNibbleRows {m : Word} {i : Reg → Reg → Instr}
    (hr : (⟨0xF00F, m, fun w => i (fieldX w) (fieldY w)⟩ : OpcodeRow) ∈ minorNibbleRows) :
    DecodesXY (fieldOp m) (fieldN m) i :=
  fun w hop hn => decode_minorNibbleRow hr w ((matches_minorNibbleRow hr w).mpr ⟨hop, hn⟩)

/-- A row that is masked by 0xF0FF and takes x states the pattern `op x mm` of its instruction. -/
theorem decodesX_of_mem_minorByteRows {m : Word} {i : Reg → Instr}
    (hr : (⟨0xF0FF, m, fun w => i (fieldX w)⟩ : OpcodeRow) ∈ minorByteRows) :
    DecodesX (fieldOp m) (fieldKK m).toNat i :=
  fun w hop hkk => decode_minorByteRow hr w ((matches_minorByteRow hr w).mpr ⟨hop, hkk⟩)

/-! ## The skip advance (R95) -/

/-- An execute stage that comes to the skip advance on `c` skips exactly when the condition `c` decides holds. -/
theorem skipsWhen_of_exec_eq_skipIf {i : Instr} {s : State} {c : Bool} {p : Prop}
    (hx : exec i s = .next (s.skipIf c)) (hc : c = true ↔ p) : SkipsWhen i s p := by
  refine ⟨s.skipIf c, hx, ⟨rfl, s.reg_skipIf c, fun _ => rfl⟩, fun hp => ?_, fun hp => ?_⟩
  · rw [State.skipIf_pc, if_pos (hc.mpr hp)]
  · rw [State.skipIf_pc, if_neg (mt hc.mp hp)]

/-! ## The key check (R116) -/

/-- A key number of at most 15 passes. -/
theorem State.ifKey_of_le (s : State) (ins : Instr) (x : Reg) (k : State) (h : (s.reg x).toNat ≤ 15) :
    s.ifKey ins x k = k :=
  ((s.ifKey_cases ins x k).resolve_right fun ⟨hgt, _⟩ => Nat.not_lt.mpr h hgt).2

/-- A key number above 15 raises KeyRange, with the unmasked value. -/
theorem State.ifKey_of_gt (s : State) (ins : Instr) (x : Reg) (k : State) (h : 15 < (s.reg x).toNat) :
    s.ifKey ins x k = s.raise .keyRange (some (encode ins)) (some (zext16 (s.reg x))) :=
  ((s.ifKey_cases ins x k).resolve_left fun ⟨hle, _⟩ => Nat.not_lt.mpr hle h).2

/-! ## The statements -/

/-- Settles O22: each compare is the skip advance on the Boolean form of its condition. -/
theorem comparesSkip : Obligations.ComparesSkip := by
  refine ⟨⟨?seK, ?sneK, ?seV, ?sneV⟩, fun s x y kk => ⟨?_, ?_, ?_, ?_⟩⟩
  case seK => exact decodesXK_of_mem_majorRows (m := 0x3000) (by simp [majorRows])
  case sneK => exact decodesXK_of_mem_majorRows (m := 0x4000) (by simp [majorRows])
  case seV => exact decodesXY_of_mem_minorNibbleRows (m := 0x5000) (by simp [minorNibbleRows])
  case sneV => exact decodesXY_of_mem_minorNibbleRows (m := 0x9000) (by simp [minorNibbleRows])
  · exact skipsWhen_of_exec_eq_skipIf rfl beq_iff_eq
  · exact skipsWhen_of_exec_eq_skipIf rfl bne_iff_ne
  · exact skipsWhen_of_exec_eq_skipIf rfl beq_iff_eq
  · exact skipsWhen_of_exec_eq_skipIf rfl bne_iff_ne

/-- Settles O23: past the key check each is the skip advance on the key's level or its negation. -/
theorem keySkipsReadTheLevel : Obligations.KeySkipsReadTheLevel := by
  refine ⟨⟨?skp, ?sknp⟩, fun s x => ⟨fun hkey => ⟨?_, ?_⟩, fun hkey => ⟨?_, ?_⟩⟩⟩
  case skp => exact decodesX_of_mem_minorByteRows (m := 0xE09E) (by simp [minorByteRows])
  case sknp => exact decodesX_of_mem_minorByteRows (m := 0xE0A1) (by simp [minorByteRows])
  · exact skipsWhen_of_exec_eq_skipIf (congrArg Host.Outcome.next (s.ifKey_of_le _ x _ hkey)) Iff.rfl
  · exact skipsWhen_of_exec_eq_skipIf (congrArg Host.Outcome.next (s.ifKey_of_le _ x _ hkey))
      (Iff.of_eq (Bool.not_eq_true' _))
  · exact congrArg Host.Outcome.next (s.ifKey_of_gt _ x _ hkey)
  · exact congrArg Host.Outcome.next (s.ifKey_of_gt _ x _ hkey)

end Sys2Proof.Machine
end

section
/-! PROOFS of 43_alu.md: what an ALU instruction leaves in V, by the order in which it writes V[x] and VF, and the flags and
results as numbers, each said once, and then the statements of R121 to R132. -/

namespace Sys2Proof.Machine

/-! ## Pattern, from the rows of the table (R84) -/

/-- A row of the 8-group that takes x alone states the pattern `8 x y m`, y ignored, of its instruction. -/
theorem decodesIgnoringY_of_mem_minorNibbleRows {m : Word} {i : Reg → Instr}
    (hr : (⟨0xF00F, m, fun w => i (fieldX w)⟩ : OpcodeRow) ∈ minorNibbleRows) (hm : fieldOp m = 0x8) :
    DecodesIgnoringY (fieldN m) i :=
  fun w hop hn => decode_minorNibbleRow hr w ((matches_minorNibbleRow hr w).mpr ⟨hop.trans hm.symm, hn⟩)

/-! ## What an execute stage that writes registers and advances leaves (R13, D17) -/

@[simp] theorem State.reg_setVF_VF (s : State) (f : Byte) : (s.setVF f).reg VF = f :=
  State.reg_setReg_self s VF f

theorem State.reg_setVF_ne (s : State) (f : Byte) {r : Reg} (h : r ≠ VF) : (s.setVF f).reg r = s.reg r :=
  State.reg_setReg_ne s f VF r h

theorem writesOne_of_exec_eq_setReg {i : Instr} {s : State} {x : Reg} {b : Byte}
    (hx : exec i s = .next (s.setReg x b).advance) : WritesOne i s x b :=
  ⟨_, hx, ⟨rfl, fun _ => rfl⟩, rfl, fun r => State.reg_setReg s x r b⟩

/-- VF written first: V[x] has the last word, also where x is F. -/
theorem writesOneAndVF_of_flag_first {i : Instr} {s : State} {x : Reg} {b f : Byte}
    (hx : exec i s = .next ((s.setVF f).setReg x b).advance) : WritesOneAndVF i s x b f := by
  refine ⟨_, hx, ⟨rfl, fun _ => rfl⟩, rfl, fun r => ?_⟩
  rw [State.reg_advance, State.reg_setReg, State.reg_setVF]

/-- VF written last: the flag has the last word where x is F. -/
theorem writesOneAndVF_of_flag_last {i : Instr} {s : State} {x : Reg} {b f : Byte}
    (hx : exec i s = .next ((s.setReg x b).setVF f).advance) :
    WritesOneAndVF i s x (if x = VF then f else b) f := by
  refine ⟨_, hx, ⟨rfl, fun _ => rfl⟩, rfl, fun r => ?_⟩
  rw [State.reg_advance, State.reg_setVF, State.reg_setReg]
  by_cases hr : r = x
  · subst hr; rw [if_pos rfl, if_pos rfl]
  · rw [if_neg hr, if_neg hr]

/-- Where x is F the result covers the flag written first, whatever it was. -/
theorem writesOneAndVF_VF_any_flag {i : Instr} {s : State} {b f : Byte} (g : Byte)
    (h : WritesOneAndVF i s VF b f) : WritesOneAndVF i s VF b g := by
  obtain ⟨t, hx, hframe, hpc, hreg⟩ := h
  refine ⟨t, hx, hframe, hpc, fun r => ?_⟩
  rw [hreg r]
  by_cases hr : r = VF
  · rw [if_pos hr, if_pos hr]
  · rw [if_neg hr, if_neg hr, if_neg hr, if_neg hr]

/-- An operation on V[x] that runs after VF is written reads the flag where x is F. -/
theorem writesOneAndVF_unary_after_flag {i : Instr} {s : State} {x : Reg} {f : Byte} (op : Byte → Byte)
    (hx : exec i s = .next ((s.setVF f).setReg x (op ((s.setVF f).reg x))).advance) :
    (x ≠ VF → WritesOneAndVF i s x (op (s.reg x)) f) ∧ (x = VF → ∀ g, WritesOneAndVF i s x (op f) g) := by
  have h := writesOneAndVF_of_flag_first hx
  refine ⟨fun hxF => ?_, fun hxF g => ?_⟩
  · rwa [s.reg_setVF_ne f hxF] at h
  · subst hxF
    rw [s.reg_setVF_VF] at h
    exact writesOneAndVF_VF_any_flag g h

/-- An operation on V[x] and V[y] that runs after VF is written reads the flag for each operand that is F. -/
theorem writesOneAndVF_binary_after_flag {i : Instr} {s : State} {x y : Reg} {f : Byte} (op : Byte → Byte → Byte)
    (hx : exec i s = .next ((s.setVF f).setReg x (op ((s.setVF f).reg x) ((s.setVF f).reg y))).advance) :
    (x ≠ VF → y ≠ VF → WritesOneAndVF i s x (op (s.reg x) (s.reg y)) f) ∧
    (x = VF → y ≠ VF → WritesOneAndVF i s x (op f (s.reg y)) f) ∧
    (x ≠ VF → y = VF → WritesOneAndVF i s x (op (s.reg x) f) f) ∧
    (x = VF → y = VF → WritesOneAndVF i s x (op f f) f) := by
  have h := writesOneAndVF_of_flag_first hx
  refine ⟨fun hxF hyF => ?_, fun hxF hyF => ?_, fun hxF hyF => ?_, fun hxF hyF => ?_⟩
  · rwa [s.reg_setVF_ne f hxF, s.reg_setVF_ne f hyF] at h
  · subst hxF
    rwa [s.reg_setVF_VF, s.reg_setVF_ne f hyF] at h
  · subst hyF
    rwa [s.reg_setVF_ne f hxF, s.reg_setVF_VF] at h
  · subst hxF hyF
    rwa [s.reg_setVF_VF] at h

/-! ## Flags and results as numbers -/

theorem flag_decide (p : Prop) [Decidable p] : flag (decide p) = if p then 1 else 0 := by
  simp only [flag, decide_eq_true_eq]

theorem add_eq_ofNat (a b : Byte) : a + b = BitVec.ofNat 8 ((a.toNat + b.toNat) % 256) :=
  BitVec.eq_of_toNat_eq (by rw [BitVec.toNat_add, BitVec.toNat_ofNat, Nat.mod_mod])

theorem sub_eq_ofNat (a b : Byte) : a - b = BitVec.ofNat 8 ((256 + a.toNat - b.toNat) % 256) := by
  apply BitVec.eq_of_toNat_eq
  rw [BitVec.toNat_sub, BitVec.toNat_ofNat]
  omega

theorem ushiftRight_one_eq_ofNat (v : Byte) : v >>> 1 = BitVec.ofNat 8 (v.toNat / 2) := by
  apply BitVec.eq_of_toNat_eq
  rw [BitVec.toNat_ushiftRight, Nat.shiftRight_eq_div_pow, BitVec.toNat_ofNat]
  omega

theorem shiftLeft_one_eq_ofNat (v : Byte) : v <<< 1 = BitVec.ofNat 8 (2 * v.toNat % 256) := by
  apply BitVec.eq_of_toNat_eq
  rw [BitVec.toNat_shiftLeft, Nat.shiftLeft_eq, BitVec.toNat_ofNat]
  omega

theorem lowBit_toNat (v : Byte) : (lowBit v).toNat = v.toNat % 2 :=
  (BitVec.toNat_and v 1).trans (Nat.and_one_is_mod v.toNat)

theorem lowBit_eq_ofNat (v : Byte) : lowBit v = BitVec.ofNat 8 (v.toNat % 2) := by
  rw [← lowBit_toNat, BitVec.ofNat_toNat, BitVec.setWidth_eq]

theorem highBit_toNat (v : Byte) : (highBit v).toNat = v.toNat / 128 := by
  have hshift : (v >>> 7).toNat = v.toNat / 128 := Nat.shiftRight_eq_div_pow v.toNat 7
  rw [show highBit v = lowBit (v >>> 7) from rfl, lowBit_toNat, hshift]
  omega

theorem highBit_eq_ofNat (v : Byte) : highBit v = BitVec.ofNat 8 (v.toNat / 128) := by
  rw [← highBit_toNat, BitVec.ofNat_toNat, BitVec.setWidth_eq]

/-- SHR's flag is a single bit, so shifting it out leaves 0. -/
theorem lowBit_ushiftRight_one (v : Byte) : lowBit v >>> 1 = 0 := by
  have hzero : v.toNat % 2 / 2 = 0 := by omega
  rw [ushiftRight_one_eq_ofNat, lowBit_toNat, hzero]
  rfl

/-- SHL's flag is a single bit, so its double does not wrap. -/
theorem highBit_shiftLeft_one (v : Byte) : highBit v <<< 1 = BitVec.ofNat 8 (2 * (v.toNat / 128)) := by
  have hfits : 2 * (v.toNat / 128) % 256 = 2 * (v.toNat / 128) := by omega
  rw [shiftLeft_one_eq_ofNat, highBit_toNat, hfits]

/-! ## The statements -/

/-- Settles O26: the difference V[x] - V[y] is an operation that runs after the flag is written. -/
theorem subWritesNotBorrowFirst : Obligations.SubWritesNotBorrowFirst := by
  refine ⟨decodesXY_of_mem_minorNibbleRows (m := 0x8005) (by simp [minorNibbleRows]), fun s x y => ?_⟩
  intro f
  have hf : notBorrow (s.reg x) (s.reg y) = f := flag_decide _
  obtain ⟨hplain, hxF, hyF, hboth⟩ := writesOneAndVF_binary_after_flag (i := .subV x y) (y := y) (f := f)
    (fun a b => a - b) (by rw [← hf]; rfl)
  refine ⟨fun hx hy => ?_, hxF, hyF, fun hx hy => ?_⟩
  · rw [← sub_eq_ofNat]
    exact hplain hx hy
  · rw [← show f - f = 0 from BitVec.sub_self f]
    exact hboth hx hy

/-- Settles O27: the difference V[y] - V[x] is an operation that runs after the flag is written. -/
theorem subnWritesNotBorrowFirst : Obligations.SubnWritesNotBorrowFirst := by
  refine ⟨decodesXY_of_mem_minorNibbleRows (m := 0x8007) (by simp [minorNibbleRows]), fun s x y => ?_⟩
  intro f
  have hf : notBorrow (s.reg y) (s.reg x) = f := flag_decide _
  obtain ⟨hplain, hxF, hyF, hboth⟩ := writesOneAndVF_binary_after_flag (i := .subnV x y) (y := y) (f := f)
    (fun a b => b - a) (by rw [← hf]; rfl)
  refine ⟨fun hx hy => ?_, hxF, hyF, fun hx hy => ?_⟩
  · rw [← sub_eq_ofNat]
    exact hplain hx hy
  · rw [← show f - f = 0 from BitVec.sub_self f]
    exact hboth hx hy

/-- Settles O28: each shift is an operation that runs after the flag is written, and with x = F it shifts the flag. -/
theorem shiftsWriteTheBitShiftedOut : Obligations.ShiftsWriteTheBitShiftedOut := by
  refine ⟨⟨?shr, ?shl⟩, fun s x => ?_⟩
  case shr => exact decodesIgnoringY_of_mem_minorNibbleRows (m := 0x8006) (by simp [minorNibbleRows]) rfl
  case shl => exact decodesIgnoringY_of_mem_minorNibbleRows (m := 0x800E) (by simp [minorNibbleRows]) rfl
  obtain ⟨hshr, hshrF⟩ := writesOneAndVF_unary_after_flag (i := .shr x) (s := s) (fun v => v >>> 1) rfl
  obtain ⟨hshl, hshlF⟩ := writesOneAndVF_unary_after_flag (i := .shl x) (s := s) (fun v => v <<< 1) rfl
  intro v
  refine ⟨fun hx => ⟨?_, ?_⟩, fun hx => ⟨?_, ?_⟩⟩
  · rw [← ushiftRight_one_eq_ofNat, ← lowBit_eq_ofNat]
    exact hshr hx
  · rw [← shiftLeft_one_eq_ofNat, ← highBit_eq_ofNat]
    exact hshl hx
  · rw [← lowBit_ushiftRight_one (s.reg x)]
    exact hshrF hx _
  · rw [← highBit_shiftLeft_one]
    exact hshlF hx _

/-- Settles O24: each instruction writes V[x] once and advances. -/
theorem loadsAndBitwiseWriteOnlyVx : Obligations.LoadsAndBitwiseWriteOnlyVx := by
  refine ⟨⟨?ldK, ?addK, ?ldV, ?orV, ?andV, ?xorV⟩, fun s x y kk => ⟨?_, ?_, ?_, ?_, ?_, ?_⟩⟩
  case ldK => exact decodesXK_of_mem_majorRows (m := 0x6000) (by simp [majorRows])
  case addK => exact decodesXK_of_mem_majorRows (m := 0x7000) (by simp [majorRows])
  case ldV => exact decodesXY_of_mem_minorNibbleRows (m := 0x8000) (by simp [minorNibbleRows])
  case orV => exact decodesXY_of_mem_minorNibbleRows (m := 0x8001) (by simp [minorNibbleRows])
  case andV => exact decodesXY_of_mem_minorNibbleRows (m := 0x8002) (by simp [minorNibbleRows])
  case xorV => exact decodesXY_of_mem_minorNibbleRows (m := 0x8003) (by simp [minorNibbleRows])
  · exact writesOne_of_exec_eq_setReg rfl
  · rw [← add_eq_ofNat]
    exact writesOne_of_exec_eq_setReg rfl
  · exact writesOne_of_exec_eq_setReg rfl
  · exact writesOne_of_exec_eq_setReg rfl
  · exact writesOne_of_exec_eq_setReg rfl
  · exact writesOne_of_exec_eq_setReg rfl

/-- Settles O25: the carry is written last, and the byte written before it is the sum modulo 256. -/
theorem addWritesSumThenCarry : Obligations.AddWritesSumThenCarry := by
  refine ⟨decodesXY_of_mem_minorNibbleRows (m := 0x8004) (by simp [minorNibbleRows]), fun s x y => ?_⟩
  intro sum carry
  have hcarry : carryOut (s.reg x) (s.reg y) = carry := flag_decide _
  have hsum : BitVec.ofNat 8 sum = BitVec.ofNat 8 (sum % 256) :=
    BitVec.eq_of_toNat_eq (by rw [BitVec.toNat_ofNat, BitVec.toNat_ofNat, Nat.mod_mod])
  rw [← hcarry, ← hsum]
  exact writesOneAndVF_of_flag_last rfl

/-- Settles O29: RND writes V[x] once, with the sample of its cycle masked, and advances. -/
theorem rndMasksTheRandomByte : Obligations.RndMasksTheRandomByte := by
  refine ⟨decodesXK_of_mem_majorRows (m := 0xC000) (by simp [majorRows]), fun s x kk => ?_⟩
  exact writesOne_of_exec_eq_setReg rfl

end Sys2Proof.Machine
end

section
/-! PROOFS of 44_index_memory.md: what a checked store and a checked load come to, and what a byte reads as after a store,
each said once, and then the statements of R140 to R146. -/

namespace Sys2Proof.Machine

/-! ## The address checks of an execute stage (R56, R57) -/

/-- A load of the offsets 0..n raises DataBounds where I + n lies above 0xFFF, and else completes. -/
theorem raises_or_loads_of_ifReadable {i : Instr} {s k : State} {n : Nat}
    (hx : exec i s = .next (s.ifReadable i (n + 1) k)) :
    (0xFFF < s.i.toNat + n → Raises i s .dataBounds (some (BitVec.ofNat 16 (max s.i.toNat 0x1000)))) ∧
    (s.i.toNat + n ≤ 0xFFF → exec i s = .next k) := by
  rw [Raises, hx]
  rcases s.ifReadable_cases i (n + 1) k with ⟨hfit, e⟩ | ⟨_, hout, e⟩ <;> rw [e]
  · exact ⟨fun h => by omega, fun _ => rfl⟩
  · exact ⟨fun _ => rfl, fun h => by omega⟩

/-- A store at the offsets 0..n raises DataBounds where I + n lies above 0xFFF and ProtectedWrite where I lies in the font,
and else completes. With at most 16 bytes the two faults exclude each other. -/
theorem raises_or_stores_of_ifWritable {i : Instr} {s k : State} {n : Nat} (hn : n ≤ 15)
    (hx : exec i s = .next (s.ifWritable i (n + 1) k)) :
    (0xFFF < s.i.toNat + n → Raises i s .dataBounds (some (BitVec.ofNat 16 (max s.i.toNat 0x1000)))) ∧
    (s.i.toNat < 0x050 → Raises i s .protectedWrite (some s.i)) ∧
    (0x050 ≤ s.i.toNat → s.i.toNat + n ≤ 0xFFF → exec i s = .next k) := by
  rw [Raises, Raises, hx]
  rcases s.ifWritable_cases i (n + 1) k (Nat.succ_pos n) with ⟨hlow, hfit, e⟩ | ⟨hout, e⟩ | ⟨hfont, hfit, e⟩ <;>
    rw [e]
  · exact ⟨fun h => by omega, fun h => by omega, fun _ _ => rfl⟩
  · exact ⟨fun _ => rfl, fun h => by omega, fun _ h => by omega⟩
  · exact ⟨fun h => by omega, fun _ => rfl, fun h => by omega⟩

/-! ## What a byte reads as after a store -/

theorem State.readByte_writeBytes_inside (s : State) (base j : Nat) (bs : List Byte) (b : Byte) (hm : s.mem.wf = true)
    (hfit : base + bs.length ≤ 0x1000) (hj : bs[j]? = some b) : (s.writeBytes base bs).readByte (base + j) = b := by
  rw [State.readByte, State.writeBytes_mem, Memory.read_writeList _ _ _ _ hm hfit, if_pos (Nat.le_add_right base j),
    Nat.add_sub_cancel_left, hj, Option.getD_some]

theorem State.readByte_writeBytes_outside (s : State) (base a : Nat) (bs : List Byte) (hm : s.mem.wf = true)
    (hfit : base + bs.length ≤ 0x1000) (ha : a < base ∨ base + bs.length ≤ a) :
    (s.writeBytes base bs).readByte a = s.readByte a := by
  rcases ha with hbelow | habove
  · exact Memory.read_writeList_below s.mem base a bs hm hfit hbelow
  · have hnone : bs[a - base]? = none := List.getElem?_eq_none (by omega)
    rw [State.readByte, State.writeBytes_mem, Memory.read_writeList _ _ _ _ hm hfit, if_pos (by omega), hnone,
      Option.getD_none, State.readByte]

/-! ## The index register as a number (R140 to R142) -/

theorem and_0x0FFF_toNat (addr : Word) : (addr &&& 0x0FFF).toNat = addr.toNat % 0x1000 :=
  (BitVec.toNat_and ..).trans (Nat.and_two_pow_sub_one_eq_mod addr.toNat 12)

theorem zext16_toNat (b : Byte) : (zext16 b).toNat = b.toNat := BitVec.toNat_setWidth_of_le (by decide)

/-- 5 times a byte fits 16 bits (R142). -/
theorem zext16_mul_five_toNat (b : Byte) : (zext16 b * 5).toNat = b.toNat * 5 := by
  have hfive : (5 : Word).toNat = 5 := rfl
  rw [BitVec.toNat_mul, zext16_toNat, hfive]
  exact Nat.mod_eq_of_lt (by omega)

/-! ## The statements -/

/-- Settles O31: the model subtracts the higher digits where the statement takes remainders, and every digit fits a byte. -/
theorem bcdGivesTheDecimalDigits : Obligations.BcdGivesTheDecimalDigits := by
  intro v
  have hv := v.isLt
  refine ⟨_, _, _, rfl, ?_⟩
  simp only [BitVec.toNat_ofNat]
  omega

/-- Settles O30: each instruction writes I and advances. -/
theorem indexWritesChangeOnlyI : Obligations.IndexWritesChangeOnlyI := by
  refine ⟨⟨?ldI, ?addI, ?ldF⟩, fun s x addr => ⟨?_, ?_, ?_⟩⟩
  case ldI => exact decodesA_of_mem_majorRows (m := 0xA000) (by simp [majorRows])
  case addI => exact decodesX_of_mem_minorByteRows (m := 0xF01E) (by simp [minorByteRows])
  case ldF => exact decodesX_of_mem_minorByteRows (m := 0xF029) (by simp [minorByteRows])
  · exact ⟨_, rfl, rfl, and_0x0FFF_toNat addr, fun _ => rfl⟩
  · have hsum : (s.i + zext16 (s.reg x)).toNat = (s.i.toNat + (s.reg x).toNat) % 0x10000 := by
      rw [BitVec.toNat_add, zext16_toNat]
    exact ⟨_, rfl, rfl, hsum, fun _ => rfl⟩
  · exact ⟨_, rfl, rfl, zext16_mul_five_toNat (s.reg x), fun _ => rfl⟩

/-- Settles O32: a checked store of the three digits of `bcdGivesTheDecimalDigits`. -/
theorem ldBStoresTheDigits : Obligations.LdBStoresTheDigits := by
  refine ⟨decodesX_of_mem_minorByteRows (m := 0xF033) (by simp [minorByteRows]), fun s x hm => ?_⟩
  obtain ⟨hbounds, hfont, hnext⟩ := raises_or_stores_of_ifWritable (i := .ldB x) (s := s) (n := 2) (by decide) rfl
  obtain ⟨h, t, o, hbcd, hh, ht, ho, _⟩ := bcdGivesTheDecimalDigits (s.reg x)
  rw [hbcd] at hnext
  refine ⟨hbounds, hfont, fun hlow hhigh => ⟨_, hnext hlow hhigh, rfl, ?_, ?_, ?_, fun a ha => ?_⟩⟩
  · rw [← hh]
    exact congrArg BitVec.toNat (s.readByte_writeBytes_inside s.i.toNat 0 _ h hm (by simp; omega) rfl)
  · rw [← ht]
    exact congrArg BitVec.toNat (s.readByte_writeBytes_inside s.i.toNat 1 _ t hm (by simp; omega) rfl)
  · rw [← ho]
    exact congrArg BitVec.toNat (s.readByte_writeBytes_inside s.i.toNat 2 _ o hm (by simp; omega) rfl)
  · exact s.readByte_writeBytes_outside s.i.toNat a _ hm (by simp; omega) (by simp; omega)

/-- Settles O33: a checked store of the x + 1 bytes V0..Vx. -/
theorem ldMIStoresTheRegisters : Obligations.LdMIStoresTheRegisters := by
  refine ⟨decodesX_of_mem_minorByteRows (m := 0xF055) (by simp [minorByteRows]), fun s x hm => ?_⟩
  obtain ⟨hbounds, hfont, hnext⟩ :=
    raises_or_stores_of_ifWritable (i := .ldMI x) (s := s) (n := x.val) (Nat.le_of_lt_succ x.isLt) rfl
  have hlen := s.firstRegs_length (x.val + 1) x.isLt
  refine ⟨hbounds, hfont, fun hlow hhigh => ⟨_, hnext hlow hhigh, rfl, fun r hr => ?_, fun a ha => ?_⟩⟩
  · exact s.readByte_writeBytes_firstRegs x r hm (by omega) hr
  · exact s.readByte_writeBytes_outside s.i.toNat a _ hm (by omega) (by omega)

/-- Settles O34: a checked load of V0..Vx by `loadRegs`, which leaves the registers above x. -/
theorem ldVMILoadsTheRegisters : Obligations.LdVMILoadsTheRegisters := by
  refine ⟨decodesX_of_mem_minorByteRows (m := 0xF065) (by simp [minorByteRows]), fun s x => ?_⟩
  obtain ⟨hbounds, hnext⟩ := raises_or_loads_of_ifReadable (i := .ldVMI x) (s := s) (n := x.val) rfl
  refine ⟨hbounds, fun hhigh => ⟨_, hnext hhigh, ⟨rfl, fun _ => rfl⟩, rfl, fun r => ?_⟩⟩
  simp only [Fin.le_def, ← Nat.lt_succ_iff]
  exact loadRegs_get s.mem s.i.toNat (x.val + 1) s.v r

end Sys2Proof.Machine
end

section
/-! PROOFS of 45_timers_keys.md: what the cycle leaves in both timers and what the key wait does with a press, each said once,
and then the statements of R150 to R153 and R206. -/

namespace Sys2Proof.Machine

/-! ## The timers after a completed cycle (R96, R206) -/

/-- R96 for both values of tick at once: each timer loses the tick, down to 0 at the least. -/
theorem step_timers_of_completed (s t : State) (i : Instr) (hcan : s.CanFetch) (hd : decode s.fetchWord = .ok i)
    (hx : exec i s = .next t) (hf : t.fault = none) (hh : s.holds i = false) :
    ∃ u, step s = .next u ∧ u.dt.toNat = t.dt.toNat - (if s.input.tick then 1 else 0) ∧
      u.st.toNat = t.st.toNat - (if s.input.tick then 1 else 0) := by
  obtain ⟨u, hu, _, hticked, hunticked, _⟩ := timersCountDownOncePerTickedCycle s t i hcan hd hx hf hh
  refine ⟨u, hu, ?_⟩
  cases htick : s.input.tick with
  | true => exact hticked htick
  | false =>
    obtain ⟨hdt, hst⟩ := hunticked htick
    exact ⟨congrArg BitVec.toNat hdt, congrArg BitVec.toNat hst⟩

/-! ## The key wait (R153) -/

/-- LD Vx,K with a key press reported writes the code into V[x] and advances. -/
theorem exec_ldVK_of_key (s : State) (x : Reg) (code : BitVec 4) (h : s.input.keyEvent = some code) :
    exec (.ldVK x) s = .next (s.setReg x (code.setWidth 8)).advance := by
  rw [exec, execLdVK, h]

/-! ## The statements -/

/-- Settles O37: the execute stage leaves V[x] in the timer, and the end of the same cycle counts it down. -/
theorem writtenTimerCountsDownInTheSameCycle : Obligations.WrittenTimerCountsDownInTheSameCycle := by
  intro s x hcan left
  have ⟨_, hf, _⟩ := hcan
  constructor
  · intro hd
    obtain ⟨u, hu, hdt, _⟩ := step_timers_of_completed s { s with dt := s.reg x }.advance _ hcan hd rfl hf rfl
    exact ⟨u, hu, hdt⟩
  · intro hd
    obtain ⟨u, hu, _, hst⟩ := step_timers_of_completed s { s with st := s.reg x }.advance _ hcan hd rfl hf rfl
    exact ⟨u, hu, hst⟩

/-- Settles O36: each instruction writes its one destination and advances. -/
theorem timerTransfersMoveTheByte : Obligations.TimerTransfersMoveTheByte := by
  refine ⟨⟨?ldVDT, ?ldDTV, ?ldSTV⟩, fun s x => ⟨?_, ?_, ?_⟩⟩
  case ldVDT => exact decodesX_of_mem_minorByteRows (m := 0xF007) (by simp [minorByteRows])
  case ldDTV => exact decodesX_of_mem_minorByteRows (m := 0xF015) (by simp [minorByteRows])
  case ldSTV => exact decodesX_of_mem_minorByteRows (m := 0xF018) (by simp [minorByteRows])
  · exact writesOne_of_exec_eq_setReg rfl
  · exact ⟨_, rfl, rfl, fun _ => rfl⟩
  · exact ⟨_, rfl, rfl, fun _ => rfl⟩

/-- Settles O38: without a press the execute stage comes back to `s`; with one it writes the code, four bits, into V[x]. -/
theorem keyWaitTakesThePress : Obligations.KeyWaitTakesThePress := by
  refine ⟨decodesX_of_mem_minorByteRows (m := 0xF00A) (by simp [minorByteRows]),
    fun s x => ⟨exec_ldVK_of_no_key s x, fun code hkey => ⟨?_, Nat.le_of_lt_succ code.isLt⟩⟩⟩
  rw [BitVec.ofNat_toNat]
  exact writesOne_of_exec_eq_setReg (exec_ldVK_of_key s x code hkey)

end Sys2Proof.Machine
end

section
/-! PROOFS of 46_display.md: the bits a sprite puts on the screen in the closed form of R162, and what one completed draw leaves,
each said once, and then the statements of R161 to R165. -/

namespace Sys2Proof.Machine

/-! ## Where the bits of a sprite fall (R162) -/

/-- A search of 0..n-1 for a number that can only be `k0` tests `k0` alone. -/
theorem any_range_of_unique {n k0 : Nat} {p f : Nat → Bool} (hp : ∀ k < n, p k = true ↔ k = k0) :
    ((List.range n).any fun k => p k && f k) = (decide (k0 < n) && f k0) := by
  rw [Bool.eq_iff_iff]
  simp only [List.any_eq_true, List.mem_range, Bool.and_eq_true, decide_eq_true_eq]
  constructor
  · rintro ⟨k, hk, hpk, hfk⟩
    obtain rfl := (hp k hk).mp hpk
    exact ⟨hk, hfk⟩
  · rintro ⟨hk, hfk⟩
    exact ⟨k0, hk, (hp k0 hk).mpr rfl, hfk⟩

theorem State.readBytes_length (s : State) (a n : Nat) : (s.readBytes a n).length = n := by
  simp [State.readBytes]

theorem State.readBytes_getD (s : State) (a : Nat) {n r : Nat} (h : r < n) :
    (s.readBytes a n).getD r 0 = s.readByte (a + r) := by
  simp [State.readBytes, h]

/-- The rows the draw searches light exactly the closed form: each axis has one row or bit that can fall on a pixel. -/
theorem State.spriteLights_readBytes (s : State) (x y : Reg) {n px py : Nat} (hn : n ≤ 32) (hx : px < 64) (hy : py < 32) :
    spriteLights (s.reg x).toNat (s.reg y).toNat 0 (s.readBytes s.i.toNat n) px py = s.spriteAt x y n px py := by
  have hrow : ∀ r < n, decide (py = ((s.reg y).toNat + (0 + r)) % 32) = true ↔
      r = (py + 32 - (s.reg y).toNat % 32) % 32 := by
    intro r hr
    rw [decide_eq_true_eq]
    omega
  have hcol : ∀ j < 8, decide (((s.reg x).toNat + j) % 64 = px) = true ↔
      j = (px + 64 - (s.reg x).toNat % 64) % 64 := by
    intro j hj
    rw [decide_eq_true_eq]
    omega
  rw [spriteLights, State.readBytes_length, any_range_of_unique hrow, any_range_of_unique hcol, State.spriteAt]
  by_cases hr : (py + 32 - (s.reg y).toNat % 32) % 32 < n
  · rw [State.readBytes_getD s _ hr, spriteBit, Bool.and_assoc]
  · simp only [hr, decide_false, Bool.false_and]

/-- Bit j of row r falls on column V[x] + j and row V[y] + r, wrapped. -/
theorem State.spriteAt_wrapped (s : State) (x y : Reg) {n r j : Nat} (hn : n ≤ 32) (hr : r < n) (hj : j < 8) :
    s.spriteAt x y n (((s.reg x).toNat + j) % 64) (((s.reg y).toNat + r) % 32) =
      (s.readByte (s.i.toNat + r)).getLsbD (7 - j) := by
  have hrow : (((s.reg y).toNat + r) % 32 + 32 - (s.reg y).toNat % 32) % 32 = r := by omega
  have hcol : (((s.reg x).toNat + j) % 64 + 64 - (s.reg x).toNat % 64) % 64 = j := by omega
  simp only [State.spriteAt, hrow, hcol, hr, hj, decide_true, Bool.true_and]

/-- The sprite falls alike in states with the same I and memory, at coordinates that are the same modulo the screen. -/
theorem State.spriteAt_congr {s t : State} {x y : Reg} (n px py : Nat) (hi : t.i = s.i) (hm : t.mem = s.mem)
    (hx : (t.reg x).toNat % 64 = (s.reg x).toNat % 64) (hy : (t.reg y).toNat % 32 = (s.reg y).toNat % 32) :
    t.spriteAt x y n px py = s.spriteAt x y n px py := by
  simp only [State.spriteAt, State.readByte, hi, hm, hx, hy]

theorem exists_getLsbD_of_ne_zero {b : Byte} (h : b ≠ 0) : ∃ k < 8, b.getLsbD k = true := by
  by_contra hnone
  push Not at hnone
  exact h (BitVec.eq_of_getLsbD_eq fun k hk => by simpa using hnone k hk)

/-- A sprite has a 1 bit on the screen exactly when one of its bytes is not 0. -/
theorem State.exists_spriteAt_iff (s : State) (x y : Reg) {n : Nat} (hn : n ≤ 32) :
    (∃ px py, px < 64 ∧ py < 32 ∧ s.spriteAt x y n px py = true) ↔ ∃ r, r < n ∧ s.readByte (s.i.toNat + r) ≠ 0 := by
  constructor
  · rintro ⟨px, py, _, _, hs⟩
    simp only [State.spriteAt, Bool.and_eq_true, decide_eq_true_eq] at hs
    obtain ⟨⟨hr, _⟩, hbit⟩ := hs
    refine ⟨_, hr, fun hzero => ?_⟩
    rw [hzero] at hbit
    simp at hbit
  · rintro ⟨r, hr, hb⟩
    obtain ⟨k, hk, hbit⟩ := exists_getLsbD_of_ne_zero hb
    refine ⟨_, _, Nat.mod_lt _ (by decide), Nat.mod_lt _ (by decide),
      (s.spriteAt_wrapped x y hn hr (j := 7 - k) (by omega)).trans ?_⟩
    rwa [Nat.sub_sub_self (by omega)]

/-! ## One completed draw (R162, R163, R165) -/

/-- The draw of DRW Vx,Vy,n. -/
def State.drawing (s : State) (x y : Reg) (n : Nat) : Drawing :=
  s.fb.draw (s.reg x) (s.reg y) (s.readBytes s.i.toNat n)

/-- What DRW Vx,Vy,n leaves when its sprite lies in memory. -/
def State.drawn (s : State) (x y : Reg) (n : Nat) : State :=
  ({ s.setVF (flag (s.drawing x y n).erased) with fb := (s.drawing x y n).fb, dirty := true } : State).advance

/-- A 1 bit of the sprite falls on a lit pixel. -/
def State.Collides (s : State) (x y : Reg) (n : Nat) : Prop :=
  ∃ px py, px < 64 ∧ py < 32 ∧ s.fb.pixel px py = true ∧ s.spriteAt x y n px py = true

theorem exec_drw (s : State) (x y : Reg) (n : Nat) :
    exec (.drw x y n) s = .next (s.ifReadable (.drw x y n) n (s.drawn x y n)) := rfl

theorem exec_drw_of_fits (s : State) (x y : Reg) (n : Nat) (h : n = 0 ∨ s.i.toNat + n - 1 ≤ 0xFFF) :
    exec (.drw x y n) s = .next (s.drawn x y n) := by
  cases n with
  | zero => rfl
  | succ m => exact (raises_or_loads_of_ifReadable (exec_drw s x y (m + 1))).2 (by omega)

theorem exec_drw_past_memory (s : State) (x y : Reg) (n : Nat) (hn : 0 < n) (h : 0xFFF < s.i.toNat + n - 1) :
    Raises (.drw x y n) s .dataBounds (some (BitVec.ofNat 16 (max s.i.toNat 0x1000))) := by
  cases n with
  | zero => exact absurd hn (Nat.lt_irrefl 0)
  | succ m => exact (raises_or_loads_of_ifReadable (exec_drw s x y (m + 1))).1 (by omega)

theorem State.drawn_eq (s : State) (x y : Reg) (n : Nat) :
    s.drawn x y n = { s with v := (s.drawn x y n).v, fb := (s.drawn x y n).fb, dirty := true, pc := s.pc + 2 } := rfl

@[simp] theorem State.drawn_i (s : State) (x y : Reg) (n : Nat) : (s.drawn x y n).i = s.i := rfl
@[simp] theorem State.drawn_mem (s : State) (x y : Reg) (n : Nat) : (s.drawn x y n).mem = s.mem := rfl
@[simp] theorem State.drawn_fault (s : State) (x y : Reg) (n : Nat) : (s.drawn x y n).fault = s.fault := rfl

theorem State.reg_drawn_ne (s : State) (x y : Reg) (n : Nat) {r : Reg} (h : r ≠ VF) :
    (s.drawn x y n).reg r = s.reg r :=
  s.reg_setVF_ne _ h

theorem State.reg_drawn_VF (s : State) (x y : Reg) (n : Nat) :
    (s.drawn x y n).reg VF = flag (s.drawing x y n).erased :=
  s.reg_setVF_VF _

theorem State.pixel_drawn (s : State) (x y : Reg) {n px py : Nat} (hn : n ≤ 32) (hx : px < 64) (hy : py < 32) :
    (s.drawn x y n).fb.pixel px py = (s.fb.pixel px py ^^ s.spriteAt x y n px py) := by
  rw [← s.spriteLights_readBytes x y hn hx hy]
  exact (Drawing.rows_spec _ _ _ 0 _ ((s.readBytes_length _ n).trans_le hn)).1 px py hx

theorem FrameBuffer.row_lt_of_pixel {fb : FrameBuffer} {px py : Nat} (h : fb.pixel px py = true) : py < 32 := by
  by_contra hy
  simp [FrameBuffer.pixel, FrameBuffer.row, hy] at h

/-- A draw is marked exactly when a 1 bit met a lit pixel (R163). -/
theorem State.drawing_erased_iff (s : State) (x y : Reg) {n : Nat} (hn : n ≤ 32) :
    (s.drawing x y n).erased = true ↔ s.Collides x y n := by
  have hlen := (s.readBytes_length s.i.toNat n).trans_le hn
  rw [State.drawing, FrameBuffer.draw, (Drawing.rows_spec _ _ _ 0 _ hlen).2]
  constructor
  · rintro (hstart | ⟨px, py, hx, hs, hp⟩)
    · exact absurd hstart Bool.false_ne_true
    · have hy := FrameBuffer.row_lt_of_pixel hp
      exact ⟨px, py, hx, hy, hp, s.spriteLights_readBytes x y hn hx hy ▸ hs⟩
  · rintro ⟨px, py, hx, hy, hp, hs⟩
    exact .inr ⟨px, py, hx, s.spriteLights_readBytes x y hn hx hy ▸ hs, hp⟩

theorem flag_eq_one_iff (c : Bool) : flag c = 1 ↔ c = true := by cases c <;> decide

theorem flag_eq_zero_or_one (c : Bool) : flag c = 0 ∨ flag c = 1 := by cases c <;> decide

theorem State.reg_drawn_VF_eq_one_iff (s : State) (x y : Reg) {n : Nat} (hn : n ≤ 32) :
    (s.drawn x y n).reg VF = 1 ↔ s.Collides x y n := by
  rw [State.reg_drawn_VF, flag_eq_one_iff, State.drawing_erased_iff s x y hn]

theorem State.reg_drawn_VF_eq_zero_or_one (s : State) (x y : Reg) (n : Nat) :
    (s.drawn x y n).reg VF = 0 ∨ (s.drawn x y n).reg VF = 1 := by
  rw [State.reg_drawn_VF]
  exact flag_eq_zero_or_one _

theorem State.reg_drawn_VF_eq_zero (s : State) (x y : Reg) {n : Nat} (hn : n ≤ 32) (h : ¬ s.Collides x y n) :
    (s.drawn x y n).reg VF = 0 :=
  (s.reg_drawn_VF_eq_zero_or_one x y n).resolve_right (mt (s.reg_drawn_VF_eq_one_iff x y hn).mp h)

/-! ## A second draw at the same place -/

/-- The sprite falls again where it fell, if the first draw's flag leaves the place. -/
theorem State.spriteAt_drawn {s : State} {x y : Reg} {n : Nat}
    (hx : ((s.drawn x y n).reg x).toNat % 64 = (s.reg x).toNat % 64)
    (hy : ((s.drawn x y n).reg y).toNat % 32 = (s.reg y).toNat % 32) (px py : Nat) :
    (s.drawn x y n).spriteAt x y n px py = s.spriteAt x y n px py :=
  State.spriteAt_congr n px py (s.drawn_i x y n) (s.drawn_mem x y n) hx hy

/-- The second draw undoes the first: a pixel XORed twice with one bit is as before. -/
theorem State.fb_drawn_drawn {s : State} {x y : Reg} {n : Nat} (hn : n ≤ 32)
    (hx : ((s.drawn x y n).reg x).toNat % 64 = (s.reg x).toNat % 64)
    (hy : ((s.drawn x y n).reg y).toNat % 32 = (s.reg y).toNat % 32) :
    ((s.drawn x y n).drawn x y n).fb = s.fb := by
  refine FrameBuffer.ext_pixel _ _ fun px py hpx hpy => ?_
  rw [State.pixel_drawn _ x y hn hpx hpy, State.spriteAt_drawn hx hy, State.pixel_drawn s x y hn hpx hpy, Bool.xor_assoc,
    Bool.xor_self, Bool.xor_false]

/-- The second draw meets a lit pixel exactly where the first lit one: under a 1 bit the first draw inverted the pixel. -/
theorem State.collides_drawn_iff {s : State} {x y : Reg} {n : Nat} (hn : n ≤ 32)
    (hx : ((s.drawn x y n).reg x).toNat % 64 = (s.reg x).toNat % 64)
    (hy : ((s.drawn x y n).reg y).toNat % 32 = (s.reg y).toNat % 32) :
    (s.drawn x y n).Collides x y n ↔
      ∃ px py, px < 64 ∧ py < 32 ∧ s.fb.pixel px py = false ∧ s.spriteAt x y n px py = true := by
  refine exists₂_congr fun px py => and_congr_right fun hpx => and_congr_right fun hpy => ?_
  rw [State.spriteAt_drawn hx hy, State.pixel_drawn s x y hn hpx hpy]
  refine and_congr_left fun hs => ?_
  rw [hs, Bool.xor_true, Bool.not_eq_true']

/-! ## The statements -/

/-- Settles O40: past the address check DRW leaves `drawn`, whose pixels and flag are the closed form's. -/
theorem drwXorsTheSprite : Obligations.DrwXorsTheSprite := by
  have hrow : (⟨0xF000, 0xD000, fun w => .drw (fieldX w) (fieldY w) (fieldN w)⟩ : OpcodeRow) ∈ majorRows := by
    simp [majorRows]
  refine ⟨fun w hop => decode_majorRow hrow w ((matches_majorRow hrow w).mpr hop), fun s x y n hn => ?_⟩
  have hn32 : n ≤ 32 := by omega
  refine ⟨exec_drw_past_memory s x y n, fun hfit => ⟨_, exec_drw_of_fits s x y n hfit, s.drawn_eq x y n,
    fun r hr => s.reg_drawn_ne x y n hr, fun px py hpx hpy => s.pixel_drawn x y hn32 hpx hpy,
    (s.reg_drawn_VF_eq_one_iff x y hn32).mpr, fun hmiss => s.reg_drawn_VF_eq_zero x y hn32 ?_, fun _ => rfl⟩⟩
  rintro ⟨px, py, hpx, hpy, hp, hs⟩
  exact Bool.false_ne_true ((hmiss px py hpx hpy hp).symm.trans hs)

/-- Settles O41: the second draw XORs the first away where it is at the same place, and reports the pixels the first lit. -/
theorem drawingTwiceRestoresTheFramebuffer : Obligations.DrawingTwiceRestoresTheFramebuffer := by
  intro s x y n hn hfit
  have hn32 : n ≤ 32 := by omega
  refine ⟨_, _, exec_drw_of_fits s x y n hfit, exec_drw_of_fits (s.drawn x y n) x y n hfit, fun r hr => ?frame,
    s.reg_drawn_VF_eq_zero_or_one x y n, State.reg_drawn_VF_eq_zero_or_one _ x y n, fun px py hpx hpy => ?pixels,
    fun hx hy => ?samePlace⟩
  case frame =>
    have hfirst := s.reg_drawn_ne x y n hr
    exact ⟨hfirst, (State.reg_drawn_ne _ x y n hr).trans hfirst⟩
  case pixels =>
    rw [State.pixel_drawn _ x y hn32 hpx hpy, State.pixel_drawn s x y hn32 hpx hpy]
  case samePlace =>
    have hreport := (State.reg_drawn_VF_eq_one_iff (s.drawn x y n) x y hn32).trans (State.collides_drawn_iff hn32 hx hy)
    refine ⟨State.fb_drawn_drawn hn32 hx hy, hreport, fun hblank => hreport.trans ?_⟩
    rw [← s.exists_spriteAt_iff x y hn32, hblank]
    simp only [FrameBuffer.pixel_clear, true_and]

/-- Settles O39: `execCls` puts the clear framebuffer in place, sets `dirty` and advances. -/
theorem clsClearsEveryPixel : Obligations.ClsClearsEveryPixel :=
  ⟨decode_exactRow (r := exactRows[0]) (List.getElem_mem _) 0x00E0 rfl,
    fun _ => ⟨_, rfl, rfl, FrameBuffer.pixel_clear, fun _ => rfl⟩⟩

/-- The state after reset, but with every pixel lit. -/
def litReset : State := { State.reset with fb := Vector.replicate 32 (BitVec.allOnes 64) }

theorem litReset_pixel {px py : Nat} (hx : px < 64) (hy : py < 32) : litReset.fb.pixel px py = true := by
  simp [litReset, FrameBuffer.pixel, FrameBuffer.row, hx, hy, -BitVec.reduceAllOnes]

/-- Settles O42: with every pixel lit, the top row of the font's glyph 0 erases pixels and lights none. -/
theorem secondDrawReportsZeroOverALitSprite : Obligations.SecondDrawReportsZeroOverALitSprite := by
  have hbit : ∃ r, r < 1 ∧ litReset.readByte (litReset.i.toNat + r) ≠ 0 := ⟨0, by decide⟩
  have hfit : (1 : Nat) = 0 ∨ litReset.i.toNat + 1 - 1 ≤ 0xFFF := .inr (by decide)
  have hfirst : litReset.Collides 0 1 1 := by
    obtain ⟨px, py, hx, hy, hs⟩ := (litReset.exists_spriteAt_iff 0 1 (by decide)).mpr hbit
    exact ⟨px, py, hx, hy, litReset_pixel hx hy, hs⟩
  have hsecond : ¬ (litReset.drawn 0 1 1).Collides 0 1 1 := by
    have hx := litReset.reg_drawn_ne 0 1 1 (r := 0) (by decide)
    have hy := litReset.reg_drawn_ne 0 1 1 (r := 1) (by decide)
    rw [State.collides_drawn_iff (by decide) (by rw [hx]) (by rw [hy])]
    rintro ⟨px, py, hx, hy, hunlit, _⟩
    exact Bool.false_ne_true (hunlit.symm.trans (litReset_pixel hx hy))
  exact ⟨litReset, _, _, 0, 1, 1, by decide, by decide, by decide, hbit, exec_drw_of_fits _ 0 1 1 hfit,
    exec_drw_of_fits (litReset.drawn 0 1 1) 0 1 1 hfit, litReset.drawn_fault 0 1 1,
    (litReset.reg_drawn_VF_eq_one_iff 0 1 (by decide)).mpr hfirst,
    State.reg_drawn_VF_eq_zero _ 0 1 (by decide) hsecond⟩

end Sys2Proof.Machine
end

section
/-! PROOFS of 60_exceptions.md: the faults an execute stage can raise and what each leaves in the record, said once,
and then the statements of R176 to R182; and the execute stages that do not read the inputs (R187, R188). -/

namespace Sys2Proof.Machine

/-! ## The faults of the execute stage (R176) -/

/-- The execute stage of `i` meets the condition of a fault (R176): the kind, and the address it records (R177). It is
`exec_raises` as a predicate, tied to `exec` in both directions by `execFault_of_exec` and `ExecFault.raises`. -/
inductive ExecFault (s : State) : Instr → FaultKind → Option Word → Prop where
  | dataBounds (i : Instr) (hn : 0 < accessLength i) (hend : 0xFFF < s.i.toNat + (accessLength i - 1)) :
      ExecFault s i .dataBounds (some (BitVec.ofNat 16 (max s.i.toNat 0x1000)))
  | protectedWrite (i : Instr) (hw : writesMemory i = true) (hlow : s.i.toNat < 0x050) :
      ExecFault s i .protectedWrite (some s.i)
  | keyRange (i : Instr) (x : Reg) (hi : i = .skp x ∨ i = .sknp x) (hkey : 15 < (s.reg x).toNat) :
      ExecFault s i .keyRange (some (zext16 (s.reg x)))
  | stackOverflow (addr : Word) (hsp : s.sp = 16) : ExecFault s (.call addr) .stackOverflow none
  | stackUnderflow (hsp : s.sp = 0) : ExecFault s .ret .stackUnderflow none

/-- A record that the execute stage leaves where there was none is that of a fault whose condition holds. -/
theorem execFault_of_exec {i : Instr} {s t : State} {r : FaultRecord} (hf : s.fault = none)
    (hx : exec i s = .next t) (ht : t.fault = some r) :
    ∃ k a, ExecFault s i k a ∧ r = ⟨k, s.pc, some (encode i), a⟩ := by
  rcases exec_raises i s t hx with hsame | ⟨k, a, rfl, hcause⟩
  · rw [hsame, hf] at ht
    cases ht
  · refine ⟨k, a, ?_, (Option.some.inj ht).symm⟩
    rcases hcause with ⟨rfl, hn, hend, rfl⟩ | ⟨rfl, hw, hlow, rfl⟩ | ⟨x, rfl, hi, hkey, rfl⟩ |
      ⟨rfl, rfl, hsp, addr, rfl⟩ | ⟨rfl, rfl, hsp, rfl⟩
    · exact .dataBounds i hn hend
    · exact .protectedWrite i hw hlow
    · exact .keyRange i x hi hkey
    · exact .stackOverflow addr hsp
    · exact .stackUnderflow hsp

/-- An access that reaches above 0xFFF raises DataBounds, in each of the instructions that access memory (R56). -/
theorem raises_dataBounds (i : Instr) (s : State) (hn : 0 < accessLength i)
    (hend : 0xFFF < s.i.toNat + (accessLength i - 1)) :
    Raises i s .dataBounds (some (BitVec.ofNat 16 (max s.i.toNat 0x1000))) := by
  cases i
  case drw x y n => exact exec_drw_past_memory s x y n hn ((Nat.add_sub_assoc hn _).symm ▸ hend)
  case ldB x => exact (raises_or_stores_of_ifWritable (n := 2) (by decide) rfl).1 hend
  case ldMI x => exact (raises_or_stores_of_ifWritable (n := x.val) (Nat.le_of_lt_succ x.isLt) rfl).1 hend
  case ldVMI x => exact (raises_or_loads_of_ifReadable (n := x.val) rfl).1 hend
  all_goals exact absurd hn (Nat.lt_irrefl 0)

/-- A write that starts below 0x050 raises ProtectedWrite, in both instructions that write memory (R57). -/
theorem raises_protectedWrite (i : Instr) (s : State) (hw : writesMemory i = true) (hlow : s.i.toNat < 0x050) :
    Raises i s .protectedWrite (some s.i) := by
  cases i
  case ldB x => exact (raises_or_stores_of_ifWritable (n := 2) (by decide) rfl).2.1 hlow
  case ldMI x => exact (raises_or_stores_of_ifWritable (n := x.val) (Nat.le_of_lt_succ x.isLt) rfl).2.1 hlow
  all_goals cases hw

/-- Every fault whose condition holds is raised. -/
theorem ExecFault.raises {s : State} {i : Instr} {k : FaultKind} {a : Option Word} (h : ExecFault s i k a) :
    Raises i s k a := by
  cases h with
  | dataBounds _ hn hend => exact raises_dataBounds i s hn hend
  | protectedWrite _ hw hlow => exact raises_protectedWrite i s hw hlow
  | keyRange _ x hi hkey =>
    obtain ⟨hskp, hsknp⟩ := (keySkipsReadTheLevel.2 s x).2 hkey
    rcases hi with rfl | rfl
    · exact hskp
    · exact hsknp
  | stackOverflow addr hsp => exact (callPushesOrOverflows.2 s addr).1 hsp
  | stackUnderflow hsp => exact (retPopsOrUnderflows.2 s).1 hsp

/-- An instruction that raises at execute encodes to the very word it was decoded from: it is neither SHR nor SHL, the
two that lose a field (R84). -/
theorem ExecFault.encode_eq {s : State} {i : Instr} {k : FaultKind} {a : Option Word} {w : Word}
    (h : ExecFault s i k a) (hd : decode w = .ok i) : encode i = w := by
  rw [encode_decode w i hd]
  refine clearUnread_of_ne i w fun x => ?_
  cases h with
  | dataBounds _ hn => constructor <;> rintro rfl <;> exact absurd hn (Nat.lt_irrefl 0)
  | protectedWrite _ hw => constructor <;> rintro rfl <;> cases hw
  | keyRange _ _ hi => rcases hi with rfl | rfl <;> exact ⟨nofun, nofun⟩
  | stackOverflow | stackUnderflow => exact ⟨nofun, nofun⟩

/-! ## The faults of a cycle (R98, R177) -/

/-- The record a cycle leaves where there was none: FetchBounds, DecodeError, or a fault of the execute stage. -/
theorem step_fault_cases {s t : State} {r : FaultRecord} (hf : s.fault = none) (h : step s = .next t)
    (ht : t.fault = some r) :
    (0xFFE < s.pc.toNat ∧ r = ⟨.fetchBounds, s.pc, none, none⟩) ∨
    (s.pc.toNat ≤ 0xFFE ∧ (∃ e, decode s.fetchWord = .error e) ∧ r = ⟨.decodeError, s.pc, some s.fetchWord, none⟩) ∨
    (s.pc.toNat ≤ 0xFFE ∧ ∃ i k a, decode s.fetchWord = .ok i ∧ ExecFault s i k a ∧
      r = ⟨k, s.pc, some s.fetchWord, a⟩) := by
  rcases step_next_cases s t h with
    ⟨_, rfl⟩ | ⟨_, hs, _⟩ | ⟨_, _, hpc, rfl⟩ | ⟨⟨_, _, hpc⟩, he, rfl⟩ | ⟨⟨_, _, hpc⟩, i, u, hd, hx, rfl⟩
  · exact absurd (hf.symm.trans ht) nofun
  · exact absurd hf hs
  · exact .inl ⟨hpc, (Option.some.inj ht).symm⟩
  · exact .inr (.inl ⟨hpc, he, (Option.some.inj ht).symm⟩)
  · rw [State.endCycle_fault] at ht
    obtain ⟨k, a, hfault, rfl⟩ := execFault_of_exec hf hx ht
    exact .inr (.inr ⟨hpc, i, k, a, hd, hfault, by rw [hfault.encode_eq hd]⟩)

/-- A cycle that meets the condition of an execute-stage fault ends with a record of its kind. -/
theorem step_raises_of_execFault {s : State} {i : Instr} {k : FaultKind} {a : Option Word} (hcan : s.CanFetch)
    (hd : decode s.fetchWord = .ok i) (h : ExecFault s i k a) :
    ∃ t r, step s = .next t ∧ t.fault = some r ∧ r.kind = k :=
  ⟨_, _, step_of_exec_next s _ i (s.cycleStart_runs i hcan hd) h.raises, State.endCycle_fault .., rfl⟩

/-! ## The record (R177) -/

/-- The address DataBounds records is the least one at or above I that lies above 0xFFF. -/
theorem dataBounds_addr_least (i : Word) :
    ∃ a : Word, some (BitVec.ofNat 16 (max i.toNat 0x1000)) = some a ∧ 0xFFF < a.toNat ∧ i.toNat ≤ a.toNat ∧
      ∀ ea, i.toNat ≤ ea → 0xFFF < ea → a.toNat ≤ ea := by
  have hmax : (BitVec.ofNat 16 (max i.toNat 0x1000)).toNat = max i.toNat 0x1000 := by
    rw [BitVec.toNat_ofNat]
    omega
  refine ⟨_, rfl, ?_, ?_, fun ea hi hout => ?_⟩ <;> rw [hmax] <;> omega

/-- SKP and SKNP take their register from the x field of the word they were decoded from. -/
theorem fieldX_of_keySkip {w : Word} {i : Instr} {x : Reg} (hi : i = .skp x ∨ i = .sknp x) (hw : encode i = w) :
    fieldX w = x := by
  rw [← hw]
  rcases hi with rfl | rfl <;> exact fieldX_wordXK ..

/-- Settles O13, along the stage that raises and then the fault. -/
theorem faultRecordHoldsItsFields : Obligations.FaultRecordHoldsItsFields := by
  intro s t r hf h ht
  rcases step_fault_cases hf h ht with ⟨_, rfl⟩ | ⟨_, _, rfl⟩ | ⟨_, i, k, a, hd, hfault, rfl⟩
  · exact ⟨rfl, rfl, nofun, nofun, nofun, fun _ _ _ => rfl⟩
  · exact ⟨rfl, rfl, nofun, nofun, nofun, fun _ _ _ => rfl⟩
  · have hw := hfault.encode_eq hd
    cases hfault with
    | dataBounds => exact ⟨rfl, rfl, fun _ => dataBounds_addr_least s.i, nofun, nofun, fun hk => absurd rfl hk⟩
    | protectedWrite => exact ⟨rfl, rfl, nofun, fun _ => rfl, nofun, fun _ hk => absurd rfl hk⟩
    | keyRange _ x hi =>
      refine ⟨rfl, rfl, nofun, nofun, fun _ => ?_, fun _ _ hk => absurd rfl hk⟩
      rw [fieldX_of_keySkip hi hw]
    | stackOverflow | stackUnderflow => exact ⟨rfl, rfl, nofun, nofun, nofun, fun _ _ _ => rfl⟩

/-! ## Which fault is raised (R176, R178) -/

/-- The conditions of `ExecFault` are those the statement lists. -/
theorem mustRaise_of_execFault {s : State} {i : Instr} {k : FaultKind} {a : Option Word} (hpc : s.pc.toNat ≤ 0xFFE)
    (hd : decode s.fetchWord = .ok i) (h : ExecFault s i k a) : s.mustRaise k := by
  cases h with
  | dataBounds _ hn hend => exact ⟨hpc, i, hd, hn, hend⟩
  | protectedWrite _ hw hlow => exact ⟨hpc, i, hd, hw, hlow⟩
  | keyRange _ x hi hkey =>
    refine ⟨hpc, x, ?_, hkey⟩
    rcases hi with rfl | rfl
    · exact .inl hd
    · exact .inr hd
  | stackOverflow addr hsp => exact ⟨hpc, addr, hd, congrArg BitVec.toNat hsp⟩
  | stackUnderflow hsp => exact ⟨hpc, hd, congrArg BitVec.toNat hsp⟩

/-- A kind whose condition holds is raised, in the stage it belongs to. -/
theorem step_raises_of_mustRaise {s : State} {k : FaultKind} (hr : s.resetHeld = false) (hf : s.fault = none)
    (h : s.mustRaise k) : ∃ t r, step s = .next t ∧ t.fault = some r ∧ r.kind = k := by
  cases k with
  | fetchBounds => exact ⟨_, _, step_of_ends s _ (s.cycleStart_of_pc_gt hr hf h), rfl, rfl⟩
  | decodeError =>
    obtain ⟨hpc, e, he⟩ := h
    exact ⟨_, _, step_of_ends s _ (s.cycleStart_of_decode_error e ⟨hr, hf, hpc⟩ he), rfl, rfl⟩
  | dataBounds =>
    obtain ⟨hpc, i, hd, hn, hend⟩ := h
    exact step_raises_of_execFault ⟨hr, hf, hpc⟩ hd (.dataBounds i hn hend)
  | protectedWrite =>
    obtain ⟨hpc, i, hd, hw, hlow⟩ := h
    exact step_raises_of_execFault ⟨hr, hf, hpc⟩ hd (.protectedWrite i hw hlow)
  | keyRange =>
    obtain ⟨hpc, x, hd | hd, hkey⟩ := h
    · exact step_raises_of_execFault ⟨hr, hf, hpc⟩ hd (.keyRange _ x (.inl rfl) hkey)
    · exact step_raises_of_execFault ⟨hr, hf, hpc⟩ hd (.keyRange _ x (.inr rfl) hkey)
  | stackOverflow =>
    obtain ⟨hpc, addr, hd, hsp⟩ := h
    exact step_raises_of_execFault ⟨hr, hf, hpc⟩ hd (.stackOverflow addr (BitVec.eq_of_toNat_eq hsp))
  | stackUnderflow =>
    obtain ⟨hpc, hd, hsp⟩ := h
    exact step_raises_of_execFault ⟨hr, hf, hpc⟩ hd (.stackUnderflow (BitVec.eq_of_toNat_eq hsp))

/-- Settles O14: a record left was raised by its stage, whose condition held; and a condition that holds is raised. The
bound on SP is not needed: above it CALL and RET raise nothing, and their conditions fail too. -/
theorem eachFaultIsRaisedExactlyWhenListed : Obligations.EachFaultIsRaisedExactlyWhenListed := by
  intro s k hr hf _
  refine ⟨?_, step_raises_of_mustRaise hr hf⟩
  rintro ⟨t, r, h, ht, rfl⟩
  rcases step_fault_cases hf h ht with ⟨hpc, rfl⟩ | ⟨hpc, he, rfl⟩ | ⟨hpc, i, k, a, hd, hfault, rfl⟩
  · exact hpc
  · exact ⟨hpc, he⟩
  · exact mustRaise_of_execFault hpc hd hfault

/-! ## The report (R182) -/

/-- Settles O15: both outputs are read off the record. -/
theorem faultReportShowsTheCode : Obligations.FaultReportShowsTheCode := by
  refine ⟨fun s => ⟨Option.isSome_iff_ne_none, fun hnone => ?_, fun r hsome => ?_⟩, rfl, rfl, rfl, rfl, rfl, rfl, rfl⟩
  · rw [State.faultCode, hnone]
  · rw [State.faultCode, hsome]

/-! ## Execute stages under another schedule of inputs (R187, R188) -/

/-- The state with another schedule of inputs: what `withSchedule` makes of a next state. -/
def State.reschedule (s : State) (samples : List Input) (k : Nat) : State := { s with inputs := samples, cycle := k }

section
variable (s : State) (samples : List Input) (k : Nat)

@[simp] theorem State.reschedule_pc : (s.reschedule samples k).pc = s.pc := rfl
@[simp] theorem State.reschedule_sp : (s.reschedule samples k).sp = s.sp := rfl
@[simp] theorem State.reschedule_top : (s.reschedule samples k).top = s.top := rfl
@[simp] theorem State.reschedule_outOfMemory (n : Nat) : (s.reschedule samples k).outOfMemory n = s.outOfMemory n := rfl
@[simp] theorem State.reschedule_inFont (n : Nat) : (s.reschedule samples k).inFont n = s.inFont n := rfl

theorem State.push_reschedule (a : Word) :
    (s.reschedule samples k).push a = (s.push a).map (·.reschedule samples k) := by
  unfold State.push
  rw [State.reschedule_sp]
  split <;> rfl

theorem execRet_reschedule : execRet (s.reschedule samples k) = withSchedule samples k (execRet s) := by
  rw [execRet, execRet, State.reschedule_sp, State.reschedule_top]
  split
  · rfl
  · cases s.top <;> rfl

theorem execCall_reschedule (addr : Word) :
    execCall addr (s.reschedule samples k) = withSchedule samples k (execCall addr s) := by
  rw [execCall, execCall, State.reschedule_sp, State.reschedule_pc, State.push_reschedule]
  split
  · rfl
  · cases s.push (s.pc + 2) <;> rfl

end

/-! The checks of R56 and R57 go on or raise alike, whatever the schedule. -/

section
variable {s t u : State} {ins : Instr} {n k : Nat} {samples : List Input}

theorem State.ifReadable_reschedule (hu : u = t.reschedule samples k) :
    (s.reschedule samples k).ifReadable ins n u = (s.ifReadable ins n t).reschedule samples k := by
  rw [hu, State.ifReadable, State.ifReadable, State.reschedule_outOfMemory]
  cases s.outOfMemory n <;> rfl

theorem State.ifOutsideFont_reschedule (hu : u = t.reschedule samples k) :
    (s.reschedule samples k).ifOutsideFont ins n u = (s.ifOutsideFont ins n t).reschedule samples k := by
  rw [hu, State.ifOutsideFont, State.ifOutsideFont, State.reschedule_inFont]
  cases s.inFont n <;> rfl

theorem State.ifWritable_reschedule (hu : u = t.reschedule samples k) :
    (s.reschedule samples k).ifWritable ins n u = (s.ifWritable ins n t).reschedule samples k :=
  State.ifReadable_reschedule (State.ifOutsideFont_reschedule hu)

end

/-- Settles O45: the stack and the address checks read other fields, and the other execute stages copy the schedule. -/
theorem otherInstructionsIgnoreTheInputs : Obligations.OtherInstructionsIgnoreTheInputs := by
  intro i s samples k hrnd hkeys
  cases i
  case rnd x kk => exact absurd rfl (hrnd x kk)
  case skp x => exact absurd rfl (hkeys x).1
  case sknp x => exact absurd rfl (hkeys x).2.1
  case ldVK x => exact absurd rfl (hkeys x).2.2
  case ret => exact execRet_reschedule s samples k
  case call addr => exact execCall_reschedule s samples k addr
  case drw x y n => exact congrArg Host.Outcome.next (State.ifReadable_reschedule rfl)
  case ldVMI x => exact congrArg Host.Outcome.next (State.ifReadable_reschedule rfl)
  case ldB x => exact congrArg Host.Outcome.next (State.ifWritable_reschedule rfl)
  case ldMI x => exact congrArg Host.Outcome.next (State.ifWritable_reschedule rfl)
  all_goals rfl

end Sys2Proof.Machine
end

section
/-! PROOFS of 70_reset_and_hazards.md: the jump to itself that ends a test run (R210), the cycle under reset, and the load
port (R200). -/

namespace Sys2Proof.Machine

/-! ## The jump to itself (R210) -/

/-- A core that is not faulted ends its run exactly at a jump to itself. -/
theorem State.endOfRun_iff (s : State) (hf : s.fault = none) : s.endOfRun = true ↔ s.instrAtPc = some (.jp s.pc) := by
  simp [State.endOfRun, hf]

/-- JP completes, writing PC alone (R101), so the target PC leaves the state as it was. -/
theorem exec_jp_pc (s : State) : exec (.jp s.pc) s = .next s := rfl

/-- The end of a cycle that samples no tick uses up the sample and does nothing more (R96). -/
theorem State.endCycle_of_no_tick (s : State) (i : Instr) (t : State) (htick : s.input.tick = false) :
    s.endCycle i t = t.consumeInput := by
  have hidle : t.maintainTimers false = t := rfl
  rw [State.endCycle_eq_ite, htick, hidle, ite_self]

/-- Settles O55: the execute stage comes back to `s`, and without a tick the end of the cycle counts nothing. -/
theorem jumpToSelfChangesNothing : Obligations.JumpToSelfChangesNothing := by
  intro s ⟨hr, hf, hpc⟩ hend htick
  have hjump : s.instrAtPc = some (.jp s.pc) := (s.endOfRun_iff hf).mp hend
  obtain ⟨_, hd⟩ := (s.instrAtPc_eq_some _).mp hjump
  have hruns := s.cycleStart_runs _ ⟨hr, hf, hpc⟩ hd
  rw [step_of_exec_next s s _ hruns (exec_jp_pc s), s.endCycle_of_no_tick _ s htick]

/-! ## The cycle under reset (R200, entry 9) -/

/-- A core held in reset ends its cycle where it begins. -/
theorem State.cycleStart_of_resetHeld (s : State) (h : s.resetHeld = true) : s.cycleStart = .ends s := by
  rw [State.cycleStart, if_pos h]

/-- A cycle that ends in fetch or decode drives no `clock_reset`. -/
theorem State.clockReset_of_ends (s t : State) (h : s.cycleStart = .ends t) : s.clockReset = false := by
  refine s.clockReset_of_not_completes fun hc => ?_
  obtain ⟨_, _, hruns, _⟩ := s.completes_iff.mp hc
  rw [h] at hruns
  cases hruns

/-- Settles O12: the cycle ends where it begins. -/
theorem noCycleRunsWhileResetIsHeld : Obligations.NoCycleRunsWhileResetIsHeld := by
  intro s hr
  have hends := s.cycleStart_of_resetHeld hr
  exact ⟨step_of_ends s s hends, s.clockReset_of_ends s hends⟩

/-! ## The load port (R200) -/

/-- Under reset and at or above 0x200, the load port writes its byte. -/
theorem State.load_of_accepted (s : State) (addr : BitVec 12) (data : Byte) (hr : s.resetHeld = true)
    (ha : 0x200 ≤ addr.toNat) : s.load addr data = s.writeBytes addr.toNat [data] := by
  simp [State.load, hr, ha]

/-- What a byte of a state reads as after one byte of its memory is written. -/
theorem State.readByte_writeBytes_singleton (s : State) (base a : Nat) (b : Byte) (hm : s.mem.wf = true) :
    (s.writeBytes base [b]).readByte a = if a = base then b else s.readByte a :=
  Memory.read_write s.mem 0 base a b hm

/-- Settles O49: a refused write cannot be the one `load_cases` lets through, and an accepted one stores one byte. -/
theorem loadPortWritesOnlyUnderReset : Obligations.LoadPortWritesOnlyUnderReset := by
  intro s addr data hm
  refine ⟨?refused, ?accepted⟩
  case refused =>
    intro hrefused
    rcases s.load_cases addr data with hsame | ⟨hheld, haddr, _⟩
    · exact hsame
    · rcases hrefused with hreleased | hlow
      · exact Bool.noConfusion (hheld.symm.trans hreleased)
      · omega
  case accepted =>
    intro hr ha
    rw [s.load_of_accepted addr data hr ha]
    exact ⟨rfl, fun a => s.readByte_writeBytes_singleton addr.toNat a data hm⟩

end Sys2Proof.Machine
end
